-- ==== Sys2Proof/Word.lean ====
section
/-! DEFINITION. The widths of the engine: bytes of BUF, 32-bit bus and register words, 64-bit lanes, 17-bit aperture
offsets (00_scope R9, R11; 10_state R20). -/

namespace Sys2Proof

/-- A byte of BUF, of the random-byte port, of a byte string (R12). -/
abbrev Byte := BitVec 8

/-- A register or bus word of 32 bits (R9). -/
abbrev Word := BitVec 32

/-- A lane of 64 bits (R9, R20). -/
abbrev Lane := BitVec 64

/-- Exactly 25 lanes; lane `j` is the matrix entry `(j mod 5, j div 5)` (R13, R20). -/
abbrev Lanes := Vector Lane 25

/-- An offset inside the aperture, 17 bits (R9, R60). -/
abbrev Offset := BitVec 17

end Sys2Proof
end

