-- ==== Sys2Proof/Config.lean ====
section
/-! DEFINITION. The engine's parameters (00_scope R8, R19) and the free values: what the spec leaves unspecified, each an
opaque constant that no proof can evaluate. -/

namespace Sys2Proof

/-- RHO_TABLE: the orientation of the rotation table (R8, R111). -/
inductive RhoTable where
  | docXY       -- DOC_XY, indexed [x][y]
  | transposed  -- TRANSPOSED, indexed [y][x]
deriving DecidableEq, Repr

/-- ABSORB_SHIFT: the bit offset of an absorbed byte inside its lane (R8, R150). -/
inductive AbsorbShift where
  | zero   -- ZERO, bits 7:0
  | div25  -- DIV25, bits 8*(i div 25)+7 : 8*(i div 25)
deriving DecidableEq, Repr

/-- HOST_ORDERING: whether the platform delivers the host's accesses in program order (R8, 20_memory R72(a)). The spec says
nothing of a weaker order but that it is weaker (log 15). -/
inductive HostOrdering where
  | inOrder  -- IN_ORDER
  | weaker   -- any weaker platform order
deriving DecidableEq, Repr

/-- The parameters of R8. -/
structure Config where
  /-- BASE: host address of aperture offset 0. -/
  base : Nat
  /-- BUF_BYTES: the size of BUF. -/
  bufBytes : Nat
  /-- THETA_ROT1. -/
  thetaRot1 : Bool
  /-- RHO_TABLE. -/
  rhoTable : RhoTable
  /-- ABSORB_SHIFT. -/
  absorbShift : AbsorbShift
  /-- RC_TABLE: any 24 x 64-bit table. -/
  rcTable : Vector Lane 24
  /-- HOST_ORDERING. -/
  hostOrdering : HostOrdering
deriving DecidableEq, Repr

/-- FREE VALUE (log 5): what a host read of a lane half or of BUF returns while BUSY = 1 (70_reset R263, "a draw"). -/
opaque Config.freeRead : Nat → Word

/-- FREE VALUE (log 6): what a host read of a BUF byte that nothing has written since reset returns (20_memory R71). -/
opaque Config.freeByte : Nat → Byte

/-- FREE VALUE (log 4): a byte the random-byte port answers (60_exceptions R236). -/
opaque Config.freeRngByte : Nat → Byte

/-- FREE VALUE (log 3): how many host steps pass between an acceptance and its completion; any finite number (70_reset R265). -/
opaque Config.freeDelay : Nat → Nat

/-- FREE VALUE (log 15): which outstanding access a platform with a weaker HOST_ORDERING delivers next (00_scope R8, OPEN). -/
opaque Config.freeOrder : Nat → Nat

end Sys2Proof
end

