-- ==== Sys2Proof/Syntax.lean ====
section
/-! DEFINITION. The nine commands of the opcode map (30_encoding R91). A command word carries no operand (R92): every
operand is a register value at acceptance. -/

namespace Sys2Proof

/-- One constructor per row of spec/opcode_table.json. -/
inductive Instr where
  | clear    -- CLEAR, 40_permutation R121
  | permute  -- PERMUTE, 40_permutation R122
  | pad      -- PAD, 41_padding R141
  | absorb   -- ABSORB, 42_sponge R152
  | squeeze  -- SQUEEZE, 42_sponge R153
  | hash     -- HASH, 43_hash R171
  | mgf1     -- MGF1, 44_mgf R181
  | oaepEnc  -- OAEP_ENC, 45_oaep R192
  | oaepDec  -- OAEP_DEC, 45_oaep R193
deriving DecidableEq, Repr

end Sys2Proof
end

