-- ==== Sys2Proof/WellFormed.lean ====
section
/-! DEFINITION. What is well formed: an instruction (always: it has no operand, R92), a command word (R90, R93, R94), a
configuration (R8). -/

namespace Sys2Proof

/-- Every command is well formed: the format CMDW has no operand field (30_encoding R90, R92). -/
def Instr.wellFormed : Instr → Bool
  | .clear => true
  | .permute => true
  | .pad => true
  | .absorb => true
  | .squeeze => true
  | .hash => true
  | .mgf1 => true
  | .oaepEnc => true
  | .oaepDec => true

/-- A command word that names a command: RSV (bits 31:8) is 0 and OPC (bits 7:0) lies in 0x01-0x09 (R90, R93, R94). -/
def commandWordWellFormed (w : Word) : Bool :=
  w.extractLsb' 8 24 == 0 && decide (1 ≤ (w.extractLsb' 0 8).toNat) && decide ((w.extractLsb' 0 8).toNat ≤ 9)

/-- The legal values of R8: BUF_BYTES in 1 .. 65536 and BASE aligned to 0x20000 (the other parameters are legal by type). -/
def Config.wellFormed (c : Config) : Bool :=
  decide (1 ≤ c.bufBytes) && decide (c.bufBytes ≤ 65536) && decide (c.base % 0x20000 = 0)

end Sys2Proof
end

