-- ==== Sys2Proof/Decode.lean ====
section
/-! DEFINITION. The decoder of 30_encoding R96, total on every 32-bit word, and the encoder beside it (R90, R91). -/

namespace Sys2Proof

/-- Why a word decodes to ILLEGAL (R93, R94). -/
inductive Illegal where
  | reservedBits    -- RSV, bits 31:8, is not 0 (R93)
  | reservedOpcode  -- OPC is 0x00 or lies in 0x0A-0xFF (R94)
deriving DecidableEq, Repr

/-- OPC, bits 7:0 (R90). -/
def opcField (w : Word) : BitVec 8 := w.extractLsb' 0 8

/-- RSV, bits 31:8 (R90). -/
def rsvField (w : Word) : BitVec 24 := w.extractLsb' 8 24

/-- The case list of R96. -/
def decodeOpcode (o : BitVec 8) : Except Illegal Instr :=
  match o with
  | 0x01#8 => .ok .clear
  | 0x02#8 => .ok .permute
  | 0x03#8 => .ok .pad
  | 0x04#8 => .ok .absorb
  | 0x05#8 => .ok .squeeze
  | 0x06#8 => .ok .hash
  | 0x07#8 => .ok .mgf1
  | 0x08#8 => .ok .oaepEnc
  | 0x09#8 => .ok .oaepDec
  | _ => .error .reservedOpcode

/-- `decode` of R96: the test RSV = 0 first, then OPC. -/
def decode (w : Word) : Except Illegal Instr :=
  if rsvField w ≠ 0 then .error .reservedBits else decodeOpcode (opcField w)

/-- The OPC column of R91. -/
def opcode : Instr → BitVec 8
  | .clear => 0x01
  | .permute => 0x02
  | .pad => 0x03
  | .absorb => 0x04
  | .squeeze => 0x05
  | .hash => 0x06
  | .mgf1 => 0x07
  | .oaepEnc => 0x08
  | .oaepDec => 0x09

/-- The command word: RSV = 0 above OPC (R90). -/
def encode (i : Instr) : Word := (0#24) ++ opcode i

/-- The instruction the decoder reads from a word of `nbits` bits whose bits above `nbits` are 0. CMDW has one length, 32
bits (R90), and reaches the engine as one 32-bit bus write, so no byte order enters. -/
def decodeTableWord (nbits w : Nat) : Option Instr :=
  if w % 2 ^ nbits < 2 ^ 32 then
    match decode (BitVec.ofNat 32 (w % 2 ^ nbits)) with
    | .ok i => some i
    | .error _ => none
  else none

end Sys2Proof
end

