-- ==== Sys2Proof/Machine/Bus.lean ====
section
/-! DEFINITION. What reaches the engine from outside: the bus transactions of 30_encoding R97 and R99, the WAIT loop of R98,
and the reset event of 70_reset R250. Also the names of the register map (10_state R32). -/

namespace Sys2Proof.Machine

/-- One event at the engine's boundary. -/
inductive BusEvent where
  | write8 (off : Offset) (v : Byte)          -- W8 off, v
  | write16 (off : Offset) (v : BitVec 16)    -- W16 off, v
  | write32 (off : Offset) (v : Word)         -- W32 off, v
  | read8 (off : Offset)                      -- R8 off -> name
  | read16 (off : Offset)                     -- R16 off -> name
  | read32 (off : Offset)                     -- R32 off -> name
  | wait                                      -- WAIT: R32 0x010, again until BUSY is clear (R98)
  | reset                                     -- a reset that reaches the engine (R250, R251, R253)
deriving DecidableEq, Repr

/-- The tuple of 30_encoding R99: direction (true for a write), width in bits, offset, and the data of a write. -/
structure Transaction where
  write : Bool
  width : Nat
  off : Offset
  data : Option Word
deriving DecidableEq, Repr

/-- The named words of the register map (R32), lane halves apart. -/
inductive Reg where
  | id | caps | bufsize | ctrl | status | cmd | resLen
  | rateBits | outBits | k | srcAddr | srcLen | auxAddr | auxLen | dstAddr | dstLen
deriving DecidableEq, Repr

/-- What stands at a word of the register window: a named register, a lane half (R21), or nothing (R46). -/
inductive RegLoc where
  | named (r : Reg)
  | laneLo (j : Fin 25)
  | laneHi (j : Fin 25)
  | reserved
deriving DecidableEq, Repr

end Sys2Proof.Machine
end

