-- ==== Sys2Proof/Machine/Tables.lean ====
section
/-! DEFINITION. The engine's two read-only tables (10_state R47) and the default configuration (00_scope R8). -/

namespace Sys2Proof.Machine

/-- `T[x][y]`, row x, column y, as 40_permutation R111 lists it. -/
def rotTable : Vector (Vector Nat 5) 5 :=
  #v[#v[0, 1, 62, 28, 27],
     #v[36, 44, 6, 55, 20],
     #v[3, 10, 43, 25, 39],
     #v[41, 45, 15, 21, 8],
     #v[18, 2, 61, 56, 14]]

/-- The rows of 40_permutation R112 as it prints them: row r holds `RC[r]` and `RC[12 + r]`, for r = 0 .. 11. -/
def rcRows : List (Lane × Lane) :=
  [(0x0000000000000001, 0x000000008000808B), (0x0000000000008082, 0x800000000000008B),
   (0x800000000000808A, 0x8000000000008089), (0x8000000080008000, 0x8000000000008003),
   (0x000000000000808B, 0x8000000000008002), (0x0000000080000001, 0x8000000000000080),
   (0x8000000080008081, 0x000000000000800A), (0x8000000000008009, 0x800000008000000A),
   (0x000000000000008A, 0x8000000080008081), (0x0000000000000088, 0x8000000000008080),
   (0x0000000080008009, 0x0000000080000001), (0x000000008000000A, 0x8000000080008008)]

/-- The default RC_TABLE: the left column of R112, `RC[0] .. RC[11]`, then its right column, `RC[12] .. RC[23]`. -/
def defaultRc : Vector Lane 24 := ⟨⟨rcRows.map Prod.fst ++ rcRows.map Prod.snd⟩, rfl⟩

/-- The defaults of R8. BASE and HOST_ORDERING are OPEN there: DESIGN CHOICE 0 (log 2), which no rule of the engine reads, and
IN_ORDER (log 15), which 20_memory R72 assumes. -/
def defaultConfig : Config where
  base := 0
  bufBytes := 65536
  thetaRot1 := false
  rhoTable := .docXY
  absorbShift := .zero
  rcTable := defaultRc
  hostOrdering := .inOrder

end Sys2Proof.Machine
end

