-- ==== Sys2Proof/Machine/State.lean ====
section
/-! DEFINITION. The machine's state as plain data: all that 10_state gives the engine, its configuration, and the agents
around it (00_scope R18). -/

namespace Sys2Proof.Machine

/-- The error codes of STATUS.ERR (60_exceptions R221); the codes 7-15 are never produced. -/
inductive ErrCode where
  | none              -- 0 NONE
  | config            -- 1 CONFIG (R225)
  | msgTooLong        -- 2 MSG_TOO_LONG (R228)
  | malformedPadding  -- 3 MALFORMED_PADDING (R229)
  | labelMismatch     -- 4 LABEL_MISMATCH (R230)
  | illegalCmd        -- 5 ILLEGAL_CMD (R227)
  | bufRange          -- 6 BUF_RANGE (R226)
deriving DecidableEq, Repr

/-- STATUS by its fields; its other bits read 0 (10_state R37). -/
structure Status where
  busy : Bool
  done : Bool
  drop : Bool
  err : ErrCode
deriving DecidableEq, Repr

/-- The nine configuration registers (10_state R40-R45). -/
structure Regs where
  rateBits : Word
  outBits : Word
  k : Word
  srcAddr : Word
  srcLen : Word
  auxAddr : Word
  auxLen : Word
  dstAddr : Word
  dstLen : Word
deriving DecidableEq, Repr

/-- BUF: the bytes written since reset, addresses strictly rising. An unlisted byte holds no value (20_memory R71). -/
abbrev Memory := List Host.Cell

/-- The canonical form: addresses strictly rise. An unlisted byte holds no value, so no entry can equal it. -/
abbrev Memory.wf (m : Memory) : Prop := m.Pairwise fun x y => x.1 < y.1

/-- The agents around the engine, as plain data (R18). The model's own fields (log 1, 3, 4, 5). -/
structure Env where
  /-- The host accesses and resets still outstanding, in program order (30_encoding R99; 20_memory R72(a)). -/
  bus : List BusEvent
  /-- What the host's reads returned, newest first (30_encoding R97). -/
  reads : List Word
  /-- The delays of the coming commands; when it is empty a delay is a free value (70_reset R265). -/
  delays : List Nat
  /-- The coming answers of the random-byte port; when it is empty an answer is a free value (60_exceptions R236). -/
  rng : List Byte
  /-- How many free values have been taken. -/
  draws : Nat
deriving DecidableEq, Repr

/-- The whole machine. -/
structure State where
  /-- The parameters of R8. No step changes them (R19, log 2). -/
  cfg : Config
  /-- The lane file S (10_state R20). -/
  lanes : Lanes
  /-- The local buffer BUF (10_state R48). -/
  buf : Memory
  /-- CTRL.STRICT_Y (10_state R36). -/
  strictY : Bool
  /-- STATUS (10_state R37). -/
  status : Status
  /-- CMD, the last accepted word (10_state R38). With BUSY = 1 it is the pending command. -/
  cmd : Word
  /-- RES_LEN (10_state R39). -/
  resLen : Word
  /-- The nine configuration registers (10_state R40-R45). -/
  regs : Regs
  /-- Steps left until the pending completion; the model's own (70_reset R265, log 3). -/
  delay : Nat
  /-- The agents around the engine. -/
  env : Env
deriving DecidableEq, Repr

/-- Why the machine stops. -/
inductive Fault where
  /-- A command read the byte of BUF at this offset, which nothing has written since reset. Raised by every command that
  reads a BUF region (`withBytes`); 20_memory R71 recommends it. Safe: nothing is claimed of what follows. -/
  | bufUnwritten (addr : Nat)
deriving DecidableEq, Repr

/-- Why an instruction has no meaning. -/
inductive Refusal where
  /-- An instruction not modelled yet, by its mnemonic. No arm of `exec` answers it. Safe. -/
  | notModelled (mnemonic : String)
deriving DecidableEq, Repr

/-- The state right after a reset of an engine with the parameters `c`, among the agents `e` (10_state R50, 70_reset R250).
The reset leaves the parameters and the other agents as they are (log 9). -/
def State.resetWith (c : Config) (e : Env) : State where
  cfg := c
  lanes := Vector.replicate 25 0
  buf := []
  strictY := true
  status := { busy := false, done := false, drop := false, err := .none }
  cmd := 0
  resLen := 0
  regs := { rateBits := 0, outBits := 0, k := 0, srcAddr := 0, srcLen := 0, auxAddr := 0, auxLen := 0, dstAddr := 0, dstLen := 0 }
  delay := 0
  env := e

/-- The machine right after reset: default parameters, no access outstanding (R250; the env fields are DESIGN CHOICEs, log 1). -/
def State.reset : State :=
  State.resetWith defaultConfig { bus := [], reads := [], delays := [], rng := [], draws := 0 }

end Sys2Proof.Machine
end

