-- ==== Sys2Proof/Machine/Flags.lean ====
section
/-! DEFINITION. The words of STATUS, CTRL and CAPS, and how STATUS changes (10_state R30, R34, R36, R37). -/

namespace Sys2Proof.Machine

/-- The code of R221 in STATUS.ERR. -/
def ErrCode.code : ErrCode → BitVec 4
  | .none => 0
  | .config => 1
  | .msgTooLong => 2
  | .malformedPadding => 3
  | .labelMismatch => 4
  | .illegalCmd => 5
  | .bufRange => 6

/-- STATUS as the host reads it: ERR in 7:4, 0 in bit 3, DROP, DONE, BUSY in 2:0, 0 above (R37). -/
def Status.word (st : Status) : Word :=
  (0#24) ++ st.err.code ++ (0#1) ++ BitVec.ofBool st.drop ++ BitVec.ofBool st.done ++ BitVec.ofBool st.busy

/-- CTRL as the host reads it: STRICT_Y in bit 0, 0 above (R36). -/
def ctrlWord (strictY : Bool) : Word := (0#31) ++ BitVec.ofBool strictY

/-- CAPS: THETA_ROT1, RHO_T and ABS_DIV25 in bits 0, 1 and 2, 0 above (R34). -/
def capsWord (c : Config) : Word :=
  (0#29) ++ BitVec.ofBool (c.absorbShift == .div25) ++ BitVec.ofBool (c.rhoTable == .transposed) ++ BitVec.ofBool c.thetaRot1

/-- A host write of STATUS: a 1 in bit 2 clears DROP, every other bit is ignored (R37). -/
def Status.hostWrite (w : Word) (st : Status) : Status :=
  { st with drop := st.drop && !w.getLsbD 2 }

/-- STATUS at acceptance (70_reset R260). -/
def Status.accepted (st : Status) : Status :=
  { st with busy := true, done := false, err := .none }

/-- STATUS at completion with the code `e` (70_reset R261, 60_exceptions R222). -/
def Status.completed (e : ErrCode) (st : Status) : Status :=
  { st with busy := false, done := true, err := e }

/-- STATUS after a dropped write (70_reset R262). -/
def Status.dropped (st : Status) : Status :=
  { st with drop := true }

end Sys2Proof.Machine
end

