-- ==== Sys2Proof/Machine/Ops.lean ====
section
/-! DEFINITION. The named operations: bytes of BUF, lane halves, acceptance of a command, its completion, raising an error
(the engine's only exception, 60_exceptions R220, R233; nothing returns from it, R234), the free inputs, reset. -/

namespace Sys2Proof.Machine

/-! ### BUF -/

/-- One byte of BUF; `none` where nothing has been written since reset (20_memory R71). -/
def Memory.read (m : Memory) (a : Nat) : Option Byte :=
  match m with
  | [] => none
  | (x, b) :: t => if x = a then some b else Memory.read t a

/-- Write one byte, keeping the addresses strictly rising. -/
def Memory.write (m : Memory) (a : Nat) (b : Byte) : Memory :=
  match m with
  | [] => [(a, b)]
  | (x, c) :: t =>
    if a < x then (a, b) :: (x, c) :: t
    else if a = x then (a, b) :: t
    else (x, c) :: Memory.write t a b

/-- MemRead (20_memory R66): `n` bytes from `a` on, or the first offset that holds no value (R71). -/
def Memory.readBytes (m : Memory) (a n : Nat) : Except Nat (List Byte) :=
  match n with
  | 0 => .ok []
  | n + 1 =>
    match Memory.read m a with
    | none => .error a
    | some b =>
      match Memory.readBytes m (a + 1) n with
      | .ok bs => .ok (b :: bs)
      | .error e => .error e

/-- MemWrite (20_memory R66). -/
def Memory.writeBytes (m : Memory) (a : Nat) (bs : List Byte) : Memory :=
  match bs with
  | [] => m
  | b :: t => Memory.writeBytes (Memory.write m a b) (a + 1) t

/-- A region of BUF is in range iff `a + n ≤ BUF_BYTES`, as unbounded integers and also for `n = 0` (20_memory R67). -/
def inRange (c : Config) (a : Word) (n : Nat) : Bool := decide (a.toNat + n ≤ c.bufBytes)

/-! ### Lane halves (10_state R21) -/

/-- `S[j][31:0]`. -/
def laneLow (l : Lane) : Word := l.extractLsb' 0 32

/-- `S[j][63:32]`. -/
def laneHigh (l : Lane) : Word := l.extractLsb' 32 32

/-- `S[j][63:32] ‖ w`. -/
def setLaneLow (l : Lane) (w : Word) : Lane := laneHigh l ++ w

/-- `w ‖ S[j][31:0]`. -/
def setLaneHigh (l : Lane) (w : Word) : Lane := w ++ laneLow l

/-! ### The life of a command -/

/-- Acceptance of the word `w` (70_reset R260), with the engine's step due after `d` more steps (R265). -/
def accepted (w : Word) (d : Nat) (s : State) : State :=
  { s with cmd := w, status := s.status.accepted, resLen := 0, delay := d }

/-- Acceptance with the delay the environment gives: the next listed one, else a free value (R265, log 3). -/
def accept (w : Word) (s : State) : State :=
  match s.env.delays with
  | d :: rest => { accepted w d s with env := { s.env with delays := rest } }
  | [] => { accepted w (Config.freeDelay s.env.draws) s with env := { s.env with draws := s.env.draws + 1 } }

/-- `raise E` (60_exceptions R222): no BUF byte and no lane changes; ERR, RES_LEN = 0, DONE = 1, BUSY = 0. -/
def raiseError (e : ErrCode) (s : State) : State :=
  { s with status := s.status.completed e, resLen := 0 }

/-- `finish(n)` (70_reset R261): RES_LEN = n, ERR = 0, DONE = 1, BUSY = 0. -/
def finish (n : Nat) (s : State) : State :=
  { s with status := s.status.completed .none, resLen := BitVec.ofNat 32 n }

/-- The engine's completion step is due: a command is pending and its delay has run out (R261, R265). -/
def engineDue (s : State) : Bool := s.status.busy && s.delay == 0

/-! ### The random-byte port (60_exceptions R236) -/

/-- The port's next `n` answer bytes: the listed ones first, then free values (log 4). -/
def rngBytes (e : Env) (n : Nat) : List Byte :=
  e.rng.take n ++ (List.range (n - e.rng.length)).map fun i => Config.freeRngByte (e.draws + i)

/-- The port after `n` answer bytes. -/
def rngAdvance (e : Env) (n : Nat) : Env :=
  { e with rng := e.rng.drop n, draws := e.draws + (n - e.rng.length) }

/-- The state after `RngDraw(n)` (R14, R236); the bytes drawn are `rngBytes s.env n`. -/
def rngDrawn (n : Nat) (s : State) : State := { s with env := rngAdvance s.env n }

/-! ### Reset -/

/-- A reset, whether or not a command is pending (70_reset R250, R251): the pending command is abandoned, BUF holds no value. -/
def resetEngine (s : State) : State := State.resetWith s.cfg s.env

end Sys2Proof.Machine
end

