-- ==== Sys2Proof/Machine/Operands.lean ====
section
/-! DEFINITION. The operands of the commands: registers as unsigned integers, the legality tests, input regions and output
regions of BUF (30_encoding R92; 60_exceptions R224, R226). -/

namespace Sys2Proof.Machine

/-- `valid_rate` of 60_exceptions R224. -/
def validRate (r : Word) : Bool := decide (r.toNat % 8 = 0) && decide (8 ≤ r.toNat) && decide (r.toNat ≤ 1600)

/-- `valid_out` of 60_exceptions R224. -/
def validOut (o : Word) : Bool := decide (o.toNat % 8 = 0) && decide (8 ≤ o.toNat) && decide (o.toNat ≤ 1600)

/-- `rate_bytes = RATE_BITS div 8` (30_encoding R92). -/
def rateBytes (s : State) : Nat := s.regs.rateBits.toNat / 8

/-- `output_bytes = hash_len = OUT_BITS div 8` (30_encoding R92). -/
def outBytes (s : State) : Nat := s.regs.outBits.toNat / 8

/-- `ceil(a / b)` for `b ≥ 1` (00_scope R11). -/
def ceilDiv (a b : Nat) : Nat := (a + b - 1) / b

/-- Read an input region that has passed its range check, and go on with its bytes. A byte that holds no value stops the
machine (20_memory R71, log 6). -/
def withBytes (s : State) (a : Word) (n : Nat) (k : List Byte → Host.Outcome State Fault Refusal) :
    Host.Outcome State Fault Refusal :=
  match Memory.readBytes s.buf a.toNat n with
  | .ok bs => k bs
  | .error e => .fault (.bufUnwritten e)

/-- The end of every command that writes BUF: the output region (DST_ADDR, n) is tested after the output is computed
(60_exceptions R223 class 5, R226), then MemWrite and `finish(n)`. -/
@[inline] def deliver (s : State) (n : Nat) (out : List Byte) : Host.Outcome State Fault Refusal :=
  if !inRange s.cfg s.regs.dstAddr n then .next (raiseError .bufRange s)
  else .next (finish n { s with buf := Memory.writeBytes s.buf s.regs.dstAddr.toNat out })

end Sys2Proof.Machine
end

