-- ==== Sys2Proof/Machine/Padding.lean ====
section
/-! DEFINITION. The padding module (41_padding) and the command PAD. -/

namespace Sys2Proof.Machine

/-- `q`, the number of padding bytes (R140). -/
def padCount (len rate : Nat) : Nat := rate - len % rate

/-- The padding bytes for a given `q` (R140). -/
def padBytes (q : Nat) : List Byte :=
  if q = 1 then [0x86]
  else if q = 2 then [0x06, 0x80]
  else 0x06 :: (List.replicate (q - 2) 0x00 ++ [0x80])

/-- `pad(m, rate_bytes)` (R140). -/
def padMsg (m : List Byte) (rate : Nat) : List Byte := m ++ padBytes (padCount m.length rate)

/-- PAD (R141). -/
def execPad (s : State) : Host.Outcome State Fault Refusal :=
  if !validRate s.regs.rateBits then .next (raiseError .config s)
  else if !inRange s.cfg s.regs.srcAddr s.regs.srcLen.toNat then .next (raiseError .bufRange s)
  else withBytes s s.regs.srcAddr s.regs.srcLen.toNat fun m =>
    deliver s (padMsg m (rateBytes s)).length (padMsg m (rateBytes s))

end Sys2Proof.Machine
end

