-- ==== Sys2Proof/Machine/Permutation.lean ====
section
/-! DEFINITION. The permutation engine (40_permutation): the five steps, the rounds, and the commands CLEAR and PERMUTE. -/

namespace Sys2Proof.Machine

/-- `A(x, y)`: lane `x + 5*y`, with x and y taken mod 5 (00_scope R13). -/
def laneAt (A : Lanes) (x y : Nat) : Lane := A[x % 5 + 5 * (y % 5)]

/-- The state whose lane at (x, y) is `f x y`, for 0 ≤ x, y < 5 (R13). -/
def ofXY (f : Nat → Nat → Lane) : Lanes := Vector.ofFn fun j => f (j.val % 5) (j.val / 5)

/-- `rol64(v, n)` (00_scope R11). -/
def rol64 (v : Lane) (n : Nat) : Lane := v.rotateLeft n

/-- `T[x][y]` (R111), with x and y taken mod 5. -/
def rotEntry (x y : Nat) : Nat := (rotTable[x % 5]'(Nat.mod_lt x (by decide)))[y % 5]'(Nat.mod_lt y (by decide))

/-- `ROT(x, y)` (R111). -/
def rot (c : Config) (x y : Nat) : Nat :=
  match c.rhoTable with
  | .docXY => rotEntry x y
  | .transposed => rotEntry y x

/-- `C[x]` of theta (R113): the XOR of the five lanes of column x. -/
def thetaC (A : Lanes) : Vector Lane 5 :=
  Vector.ofFn fun x => laneAt A x 0 ^^^ laneAt A x 1 ^^^ laneAt A x 2 ^^^ laneAt A x 3 ^^^ laneAt A x 4

/-- `E[x]` of theta (R113): `C[(x+1) mod 5]`, rotated left by 1 iff THETA_ROT1. -/
def thetaE (c : Config) (C : Vector Lane 5) (x : Nat) : Lane :=
  if c.thetaRot1 then rol64 (C[(x + 1) % 5]'(Nat.mod_lt _ (by decide))) 1 else C[(x + 1) % 5]'(Nat.mod_lt _ (by decide))

/-- `D[x]` of theta (R113): `C[(x-1) mod 5] ^ E[x]`. -/
def thetaD (c : Config) (C : Vector Lane 5) : Vector Lane 5 :=
  Vector.ofFn fun x => C[(x.val + 4) % 5]'(Nat.mod_lt _ (by decide)) ^^^ thetaE c C x

/-- theta (R113). -/
def theta (c : Config) (A : Lanes) : Lanes :=
  let D := thetaD c (thetaC A)
  ofXY fun x y => laneAt A x y ^^^ D[x % 5]'(Nat.mod_lt x (by decide))

/-- rho (R114). -/
def rho (c : Config) (A : Lanes) : Lanes := ofXY fun x y => rol64 (laneAt A x y) (rot c x y)

/-- pi (R115), read from the target: the lane that lands at (u, v) is the one at `((u + 3v) mod 5, u)`, since
`A'(y, 2x + 3y) = A(x, y)` and `2*(u + 3v) + 3u = v` mod 5 (DEDUCED, log 8; the statement PiMovesEveryLane says R115 in its own form). -/
def piStep (A : Lanes) : Lanes := ofXY fun u v => laneAt A (u + 3 * v) u

/-- chi (R116): every operand is a lane of the input state. -/
def chi (A : Lanes) : Lanes :=
  ofXY fun x y => laneAt A x y ^^^ (~~~(laneAt A (x + 1) y) &&& laneAt A (x + 2) y)

/-- iota in round r (R117). -/
def iota (c : Config) (r : Fin 24) (A : Lanes) : Lanes := A.set 0 (A[0] ^^^ c.rcTable[r])

/-- Round r (R118). -/
def keccakRound (c : Config) (A : Lanes) (r : Fin 24) : Lanes := iota c r (chi (piStep (rho c (theta c A))))

/-- The permutation P: rounds 0, 1, ..., 23 in order (R119). -/
def keccakP (c : Config) (A : Lanes) : Lanes := (List.finRange 24).foldl (keccakRound c) A

/-- The all-zero state (R22, R121). -/
def zeroLanes : Lanes := Vector.replicate 25 0

/-- CLEAR (R121). -/
def execClear (s : State) : Host.Outcome State Fault Refusal :=
  .next (finish 0 { s with lanes := zeroLanes })

/-- PERMUTE (R122). -/
def execPermute (s : State) : Host.Outcome State Fault Refusal :=
  .next (finish 0 { s with lanes := keccakP s.cfg s.lanes })

end Sys2Proof.Machine
end

