-- ==== Sys2Proof/Machine/Sponge.lean ====
section
/-! DEFINITION. The sponge construction (42_sponge) and the commands ABSORB and SQUEEZE. -/

namespace Sys2Proof.Machine

/-- `sh(i)` (R150). -/
def absorbShift (c : Config) (i : Nat) : Nat :=
  match c.absorbShift with
  | .zero => 0
  | .div25 => 8 * (i / 25)

/-- XOR the byte `b` at position `i` of a block into lane `i mod 25` (R150). -/
def xorByte (c : Config) (i : Nat) (b : Byte) (A : Lanes) : Lanes :=
  A.set (i % 25) (A[i % 25]'(Nat.mod_lt i (by decide)) ^^^ (b.setWidth 64 <<< absorbShift c i)) (Nat.mod_lt i (by decide))

/-- XOR the bytes of a block into the state, in order, from position `i` on (R150). -/
def xorBytes (c : Config) (i : Nat) (blk : List Byte) (A : Lanes) : Lanes :=
  match blk with
  | [] => A
  | b :: rest => xorBytes c (i + 1) rest (xorByte c i b A)

/-- Absorb `n` blocks of `rate` bytes into A, the permutation `P` after each (R150). -/
def absorbBlocks (c : Config) (P : Lanes → Lanes) (rate n : Nat) (Pm : List Byte) (A : Lanes) : Lanes :=
  match n with
  | 0 => A
  | n + 1 => absorbBlocks c P rate n (Pm.drop rate) (P (xorBytes c 0 (Pm.take rate) A))

/-- `absorb(Pm, rate_bytes)` (R150): from the all-zero state, block by block. -/
def absorb (c : Config) (Pm : List Byte) (rate : Nat) : Lanes :=
  absorbBlocks c (keccakP c) rate (Pm.length / rate) Pm zeroLanes

/-- Byte `i` of the squeeze output: `(A[i div 8] >> (8*(i mod 8)))[7:0]` (R151). R151 has i < 200, where `i div 8 < 25`. -/
def squeezeByte (A : Lanes) (i : Nat) : Byte := (A.toList.getD (i / 8) 0 >>> (8 * (i % 8))).setWidth 8

/-- `squeeze(A, n)` (R151). -/
def squeeze (A : Lanes) (n : Nat) : List Byte := (List.range n).map (squeezeByte A)

/-- ABSORB (R152). -/
def execAbsorb (s : State) : Host.Outcome State Fault Refusal :=
  if !validRate s.regs.rateBits then .next (raiseError .config s)
  else if s.regs.srcLen.toNat % rateBytes s ≠ 0 then .next (raiseError .config s)
  else if !inRange s.cfg s.regs.srcAddr s.regs.srcLen.toNat then .next (raiseError .bufRange s)
  else withBytes s s.regs.srcAddr s.regs.srcLen.toNat fun Pm =>
    .next (finish 0 { s with lanes := absorb s.cfg Pm (rateBytes s) })

/-- SQUEEZE (R153). -/
def execSqueeze (s : State) : Host.Outcome State Fault Refusal :=
  if !validOut s.regs.outBits then .next (raiseError .config s)
  else deliver s (outBytes s) (squeeze s.lanes (outBytes s))

end Sys2Proof.Machine
end

