-- ==== Sys2Proof/Machine/Hash.lean ====
section
/-! DEFINITION. The hash facade (43_hash) and the command HASH. -/

namespace Sys2Proof.Machine

/-- `hash(m, rate_bits, output_bits)` (R170): pad, absorb, one extra permutation, squeeze. -/
def hashMsg (c : Config) (m : List Byte) (rateBits outBits : Nat) : List Byte :=
  squeeze (keccakP c (absorb c (padMsg m (rateBits / 8)) (rateBits / 8))) (outBits / 8)

/-- HASH (R171). -/
def execHash (s : State) : Host.Outcome State Fault Refusal :=
  if !validRate s.regs.rateBits then .next (raiseError .config s)
  else if !validOut s.regs.outBits then .next (raiseError .config s)
  else if !inRange s.cfg s.regs.srcAddr s.regs.srcLen.toNat then .next (raiseError .bufRange s)
  else withBytes s s.regs.srcAddr s.regs.srcLen.toNat fun m =>
    deliver s (outBytes s) (hashMsg s.cfg m s.regs.rateBits.toNat s.regs.outBits.toNat)

end Sys2Proof.Machine
end

