-- ==== Sys2Proof/Machine/Mgf.lean ====
section
/-! DEFINITION. The mask generation function (44_mgf) and the command MGF1. -/

namespace Sys2Proof.Machine

/-- `be32(c)` (00_scope R12): the 4-byte big-endian encoding of `c mod 2^32`. -/
def be32 (c : Nat) : List Byte :=
  let w : Word := BitVec.ofNat 32 c
  [w.extractLsb' 24 8, w.extractLsb' 16 8, w.extractLsb' 8 8, w.extractLsb' 0 8]

/-- The loop of R180, over the hash `H`: while `len(T) < n`, append `H(seed ‖ be32(c))` and count up. Every iteration adds
at least one byte, so `fuel = n - len(T)` iterations are enough (log 10). -/
def mgfLoop (H : List Byte → List Byte) (seed : List Byte) (n fuel : Nat) (T : List Byte) (c : Nat) : List Byte :=
  match fuel with
  | 0 => T
  | fuel + 1 => if T.length < n then mgfLoop H seed n fuel (T ++ H (seed ++ be32 c)) (c + 1) else T

/-- `mgf1(seed, n, rate_bits, output_bits)` (R180). -/
def mgf1 (c : Config) (seed : List Byte) (n rateBits outBits : Nat) : List Byte :=
  (mgfLoop (fun m => hashMsg c m rateBits outBits) seed n n [] 0).take n

/-- MGF1 (R181). The third test never fires for a 32-bit DST_LEN (90_conflicts C8); it stands where R181 has it. -/
def execMgf1 (s : State) : Host.Outcome State Fault Refusal :=
  if !validRate s.regs.rateBits then .next (raiseError .config s)
  else if !validOut s.regs.outBits then .next (raiseError .config s)
  else if ceilDiv s.regs.dstLen.toNat (outBytes s) > 2 ^ 32 then .next (raiseError .config s)
  else if !inRange s.cfg s.regs.srcAddr s.regs.srcLen.toNat then .next (raiseError .bufRange s)
  else withBytes s s.regs.srcAddr s.regs.srcLen.toNat fun seed =>
    deliver s s.regs.dstLen.toNat
      (mgf1 s.cfg seed s.regs.dstLen.toNat s.regs.rateBits.toNat s.regs.outBits.toNat)

end Sys2Proof.Machine
end

