-- ==== Sys2Proof/Machine/Oaep.lean ====
section
/-! DEFINITION. The OAEP layer (45_oaep) and the commands OAEP_ENC and OAEP_DEC. -/

namespace Sys2Proof.Machine

/-- `a XOR b` on byte strings of equal length (00_scope R12). -/
def xorStr (a b : List Byte) : List Byte := List.zipWith (· ^^^ ·) a b

/-- `find01(b)` (00_scope R12): the least index of a byte 0x01. -/
def find01 (b : List Byte) : Option Nat := b.findIdx? (· == 0x01)

/-- `len(m) ≤ k - 2h - 2` as integers (R191, 60_exceptions R228); over Nat the subtrahends stand on the left. -/
def oaepFits (len k h : Nat) : Bool := decide (len + 2 * h + 2 ≤ k)

/-- `db = lHash ‖ PS ‖ 0x01 ‖ m` with the zero count `k - 2h - 2 - len(m)` of R190 (90_conflicts C1). -/
def oaepDb (lHash m : List Byte) (k h : Nat) : List Byte :=
  lHash ++ List.replicate (k - 2 * h - 2 - m.length) 0x00 ++ [0x01] ++ m

/-- The block of R190 and R191 that a data block and a drawn seed give. -/
def oaepMask (c : Config) (db seed : List Byte) (k rateBits outBits : Nat) : List Byte :=
  let h := outBits / 8
  let maskedDB := xorStr db (mgf1 c seed (k - h - 1) rateBits outBits)
  let maskedSeed := xorStr seed (mgf1 c maskedDB h rateBits outBits)
  [0x00] ++ maskedSeed ++ maskedDB

/-- `oaep_encode` of R191 for the drawn seed `seed`. The length test comes before the draw (R228, R236). -/
def oaepEncode (c : Config) (m label : List Byte) (k rateBits outBits : Nat) (seed : List Byte) : Except ErrCode (List Byte) :=
  if !oaepFits m.length k (outBits / 8) then .error .msgTooLong
  else .ok (oaepMask c (oaepDb (hashMsg c label rateBits outBits) m k (outBits / 8)) seed k rateBits outBits)

/-- The data block that decode recovers from a block (R197): its two masking passes undone. -/
def oaepUnmask (c : Config) (E : List Byte) (k rateBits outBits : Nat) : List Byte :=
  let h := outBits / 8
  let maskedSeed := (E.drop 1).take h
  let maskedDB := (E.take k).drop (1 + h)
  let seed := xorStr maskedSeed (mgf1 c maskedDB h rateBits outBits)
  xorStr maskedDB (mgf1 c seed (k - h - 1) rateBits outBits)

/-- `oaep_decode` of R197; `st` is CTRL.STRICT_Y. The leading byte is tested first (R195), the delimiter before the label
(60_exceptions R223, R229). -/
def oaepDecode (c : Config) (E label : List Byte) (k rateBits outBits : Nat) (st : Bool) : Except ErrCode (List Byte) :=
  let h := outBits / 8
  if st && E.getD 0 0 != 0x00 then .error .malformedPadding
  else
    let db := oaepUnmask c E k rateBits outBits
    match find01 (db.drop h) with
    | none => .error .malformedPadding
    | some i =>
      if db.take h ≠ hashMsg c label rateBits outBits then .error .labelMismatch
      else .ok ((db.drop h).drop (i + 1))

/-- OAEP_ENC (R192): the seed is drawn after the length test and before the test of the output region (R236). -/
def execOaepEnc (s : State) : Host.Outcome State Fault Refusal :=
  if !validRate s.regs.rateBits then .next (raiseError .config s)
  else if !validOut s.regs.outBits then .next (raiseError .config s)
  else if !inRange s.cfg s.regs.srcAddr s.regs.srcLen.toNat then .next (raiseError .bufRange s)
  else if !inRange s.cfg s.regs.auxAddr s.regs.auxLen.toNat then .next (raiseError .bufRange s)
  else withBytes s s.regs.srcAddr s.regs.srcLen.toNat fun m =>
    withBytes s s.regs.auxAddr s.regs.auxLen.toNat fun label =>
      if !oaepFits m.length s.regs.k.toNat (outBytes s) then .next (raiseError .msgTooLong s)
      else deliver (rngDrawn (outBytes s) s) s.regs.k.toNat
        (oaepMask s.cfg (oaepDb (hashMsg s.cfg label s.regs.rateBits.toNat s.regs.outBits.toNat) m s.regs.k.toNat (outBytes s))
          (rngBytes s.env (outBytes s)) s.regs.k.toNat s.regs.rateBits.toNat s.regs.outBits.toNat)

/-- OAEP_DEC (R193). -/
def execOaepDec (s : State) : Host.Outcome State Fault Refusal :=
  if !validRate s.regs.rateBits then .next (raiseError .config s)
  else if !validOut s.regs.outBits then .next (raiseError .config s)
  else if s.regs.k.toNat < 2 * outBytes s + 2 then .next (raiseError .config s)
  else if !inRange s.cfg s.regs.srcAddr s.regs.k.toNat then .next (raiseError .bufRange s)
  else if !inRange s.cfg s.regs.auxAddr s.regs.auxLen.toNat then .next (raiseError .bufRange s)
  else withBytes s s.regs.srcAddr s.regs.k.toNat fun E =>
    withBytes s s.regs.auxAddr s.regs.auxLen.toNat fun label =>
      match oaepDecode s.cfg E label s.regs.k.toNat s.regs.rateBits.toNat s.regs.outBits.toNat s.strictY with
      | .error e => .next (raiseError e s)
      | .ok msg => deliver s msg.length msg

end Sys2Proof.Machine
end

