-- ==== Sys2Proof/Machine/Dispatch.lean ====
section
/-! DEFINITION. What each command does when the engine completes it (70_reset R261): one direct call per constructor. -/

namespace Sys2Proof.Machine

def exec (i : Instr) (s : State) : Host.Outcome State Fault Refusal :=
  match i with
  | .clear => Sys2Proof.Machine.execClear s
  | .permute => Sys2Proof.Machine.execPermute s
  | .pad => Sys2Proof.Machine.execPad s
  | .absorb => Sys2Proof.Machine.execAbsorb s
  | .squeeze => Sys2Proof.Machine.execSqueeze s
  | .hash => Sys2Proof.Machine.execHash s
  | .mgf1 => Sys2Proof.Machine.execMgf1 s
  | .oaepEnc => Sys2Proof.Machine.execOaepEnc s
  | .oaepDec => Sys2Proof.Machine.execOaepDec s

end Sys2Proof.Machine
end

