-- ==== Sys2Proof/Machine/Host.lean ====
section
/-! DEFINITION. The host's side of the aperture: the register map (10_state R32), reads and writes of both windows
(20_memory R61, R62, R69, R71), dropped writes and busy reads (70_reset R262, R263), and one step of the world outside. -/

namespace Sys2Proof.Machine

/-! ### The register map -/

/-- The offset column of R32. -/
def Reg.offset : Reg → Nat
  | .id => 0x000
  | .caps => 0x004
  | .bufsize => 0x008
  | .ctrl => 0x00C
  | .status => 0x010
  | .cmd => 0x014
  | .resLen => 0x018
  | .rateBits => 0x020
  | .outBits => 0x024
  | .k => 0x028
  | .srcAddr => 0x030
  | .srcLen => 0x034
  | .auxAddr => 0x038
  | .auxLen => 0x03C
  | .dstAddr => 0x040
  | .dstLen => 0x044

/-- Every named register of R32. -/
def allRegs : List Reg :=
  [.id, .caps, .bufsize, .ctrl, .status, .cmd, .resLen,
   .rateBits, .outBits, .k, .srcAddr, .srcLen, .auxAddr, .auxLen, .dstAddr, .dstLen]

/-- What stands at the offset `o` of the register window: a lane half in 0x100-0x1C4 (R21), a named register, or nothing (R46). -/
def regLocAt (o : Nat) : RegLoc :=
  if h : 0x100 ≤ o ∧ o < 0x1C8 then
    if o % 8 = 0 then .laneLo ⟨(o - 0x100) / 8, by omega⟩ else .laneHi ⟨(o - 0x100) / 8, by omega⟩
  else
    match allRegs.find? fun r => r.offset == o with
    | some r => .named r
    | none => .reserved

/-- Where an offset of the aperture lies (20_memory R60): the buffer window starts at 0x10000. -/
def inBufWindow (off : Offset) : Bool := decide (0x10000 ≤ off.toNat)

/-- BASE + offset (R60). -/
def hostAddress (c : Config) (off : Offset) : Nat := c.base + off.toNat

/-- The aperture offset of a host address, if it lies in the engine's aperture (R60). -/
def apertureOffset (c : Config) (a : Nat) : Option Offset :=
  if c.base ≤ a ∧ a < c.base + 0x20000 then some (BitVec.ofNat 17 (a - c.base)) else none

/-! ### Which accesses are admitted -/

/-- An `n`-byte access to the register window is admitted iff it is 32 bits wide and aligned (R61). -/
def regAdmitted (n : Nat) (off : Offset) : Bool := decide (n = 4) && decide (off.toNat % 4 = 0)

/-- An `n`-byte access to the buffer window is admitted iff it is naturally aligned and lies wholly below BUF_BYTES (R62). -/
def bufAdmitted (c : Config) (n : Nat) (off : Offset) : Bool :=
  decide (off.toNat % n = 0) && decide (off.toNat - 0x10000 + n ≤ c.bufBytes)

/-- An access that R61 and R62 admit. -/
def admitted (c : Config) (n : Nat) (off : Offset) : Bool :=
  if inBufWindow off then bufAdmitted c n off else regAdmitted n off

/-! ### Reads -/

/-- The value of a named register (R33-R45). -/
def readReg (s : State) : Reg → Word
  | .id => 0x4B430001
  | .caps => capsWord s.cfg
  | .bufsize => BitVec.ofNat 32 s.cfg.bufBytes
  | .ctrl => ctrlWord s.strictY
  | .status => s.status.word
  | .cmd => s.cmd
  | .resLen => s.resLen
  | .rateBits => s.regs.rateBits
  | .outBits => s.regs.outBits
  | .k => s.regs.k
  | .srcAddr => s.regs.srcAddr
  | .srcLen => s.regs.srcLen
  | .auxAddr => s.regs.auxAddr
  | .auxLen => s.regs.auxLen
  | .dstAddr => s.regs.dstAddr
  | .dstLen => s.regs.dstLen

/-- The fresh unspecified word of this moment (log 5). -/
def freeWord (s : State) : Word := Config.freeRead s.env.draws

/-- An admitted read of the register window: lane halves are unspecified while BUSY = 1 (70_reset R263), reserved words read
0 (R46). -/
def readRegLoc (s : State) : RegLoc → Word
  | .named r => readReg s r
  | .laneLo j => if s.status.busy then freeWord s else laneLow s.lanes[j]
  | .laneHi j => if s.status.busy then freeWord s else laneHigh s.lanes[j]
  | .reserved => 0

/-- One byte of BUF as the host reads it; a byte that nothing has written is the free value `i` of this moment (R71, log 6). -/
def hostByte (s : State) (a i : Nat) : Byte := (Memory.read s.buf a).getD (Config.freeByte (s.env.draws + i))

/-- The little-endian value of `n` bytes of BUF from `a` on (R62, R63): the sum over i of `BUF[a + i] << 8*i`. -/
def hostBytes (s : State) (a i n : Nat) : Word :=
  match n with
  | 0 => 0
  | n + 1 => (hostByte s a i).setWidth 32 + (hostBytes s (a + 1) (i + 1) n <<< 8)

/-- An unspecified value of the access width (R263). -/
def cutToWidth (n : Nat) (w : Word) : Word := (w.setWidth (8 * n)).setWidth 32

/-- What an `n`-byte host read at `off` returns, zero-extended to 32 bits (R61, R62, R263). -/
def hostReadValue (s : State) (n : Nat) (off : Offset) : Word :=
  if !admitted s.cfg n off then 0
  else if inBufWindow off then
    if s.status.busy then cutToWidth n (freeWord s) else hostBytes s (off.toNat - 0x10000) 0 n
  else readRegLoc s (regLocAt off.toNat)

/-- A host read: its value is recorded, and nothing of the engine changes (20_memory R69). The counter of free values
moves past those this read may have used. -/
def hostRead (n : Nat) (off : Offset) (s : State) : State :=
  { s with env := { s.env with reads := hostReadValue s n off :: s.env.reads, draws := s.env.draws + 4 } }

/-! ### Writes -/

/-- A host write of a named register while BUSY = 0 (R32, R36-R45). ID, CAPS, BUFSIZE and RES_LEN are read-only. STATUS is
the same write whatever BUSY is (R37). -/
def writeReg (r : Reg) (v : Word) (s : State) : State :=
  match r with
  | .id => s
  | .caps => s
  | .bufsize => s
  | .ctrl => { s with strictY := v.getLsbD 0 }
  | .status => { s with status := s.status.hostWrite v }
  | .cmd => accept v s
  | .resLen => s
  | .rateBits => { s with regs := { s.regs with rateBits := v } }
  | .outBits => { s with regs := { s.regs with outBits := v } }
  | .k => { s with regs := { s.regs with k := v } }
  | .srcAddr => { s with regs := { s.regs with srcAddr := v } }
  | .srcLen => { s with regs := { s.regs with srcLen := v } }
  | .auxAddr => { s with regs := { s.regs with auxAddr := v } }
  | .auxLen => { s with regs := { s.regs with auxLen := v } }
  | .dstAddr => { s with regs := { s.regs with dstAddr := v } }
  | .dstLen => { s with regs := { s.regs with dstLen := v } }

/-- An admitted write of the register window while BUSY = 0 (R21, R32, R46). -/
def writeRegLoc (l : RegLoc) (v : Word) (s : State) : State :=
  match l with
  | .named r => writeReg r v s
  | .laneLo j => { s with lanes := s.lanes.set j (setLaneLow s.lanes[j] v) }
  | .laneHi j => { s with lanes := s.lanes.set j (setLaneHigh s.lanes[j] v) }
  | .reserved => s

/-- The low `n` bytes of `v`, the least significant first (R62, R63). -/
def leBytes (n : Nat) (v : Word) : List Byte := (List.range n).map fun i => v.extractLsb' (8 * i) 8

/-- A write that is dropped sets DROP and changes nothing else (70_reset R262). -/
def dropWrite (s : State) : State := { s with status := s.status.dropped }

/-- An `n`-byte host write of `v` at `off`: ignored where R61 and R62 do not admit it; a STATUS write always takes its
effect (R37); any other write while BUSY = 1 is dropped (R262). -/
def hostWrite (n : Nat) (off : Offset) (v : Word) (s : State) : State :=
  if !admitted s.cfg n off then s
  else if inBufWindow off then
    if s.status.busy then dropWrite s
    else { s with buf := Memory.writeBytes s.buf (off.toNat - 0x10000) (leBytes n v) }
  else if s.status.busy && regLocAt off.toNat != .named .status then dropWrite s
  else writeRegLoc (regLocAt off.toNat) v s

/-! ### One step of the world outside -/

/-- One event at the boundary (30_encoding R97, R98; 70_reset R250). -/
def busEvent (e : BusEvent) (s : State) : State :=
  match e with
  | .write8 off v => hostWrite 1 off (v.setWidth 32) s
  | .write16 off v => hostWrite 2 off (v.setWidth 32) s
  | .write32 off v => hostWrite 4 off v s
  | .read8 off => hostRead 1 off s
  | .read16 off => hostRead 2 off s
  | .read32 off => hostRead 4 off s
  | .wait => hostRead 4 0x010 s
  | .reset => resetEngine s

/-- The place, in the list of outstanding events, of the one that is delivered next: the first under IN_ORDER (20_memory
R72(a)), any of them, by a free value, under a weaker platform order (00_scope R8, log 15). -/
def deliveryIndex (s : State) : Nat :=
  match s.cfg.hostOrdering with
  | .inOrder => 0
  | .weaker => Config.freeOrder s.env.draws % s.env.bus.length

/-- How many free values the choice of the next event takes. -/
def deliveryDraws (c : Config) : Nat :=
  match c.hostOrdering with
  | .inOrder => 0
  | .weaker => 1

/-- The event that is delivered next, if one is outstanding. -/
def nextEvent (s : State) : Option BusEvent := s.env.bus[deliveryIndex s]?

/-- The events that stay outstanding when the next one, `e`, is performed: a WAIT stays while the STATUS it reads has BUSY = 1
(30_encoding R98). -/
def busRest (e : BusEvent) (s : State) : List BusEvent :=
  if e = .wait ∧ s.status.busy then s.env.bus else s.env.bus.eraseIdx (deliveryIndex s)

/-- The state in which the next event, `e`, is performed: it is taken off the list. -/
def takeEvent (e : BusEvent) (s : State) : State :=
  { s with env := { s.env with bus := busRest e s, draws := s.env.draws + deliveryDraws s.cfg } }

/-- The next event is performed; with none outstanding the engine waits (70_reset R252). -/
def outsideStep (s : State) : State :=
  match nextEvent s with
  | none => s
  | some e => busEvent e (takeEvent e s)

/-- A step in which the engine's completion is not due: a pending command's delay runs down by one (R265), and the world
outside takes its step. -/
def hostStep (s : State) : State := outsideStep { s with delay := s.delay - 1 }

end Sys2Proof.Machine
end

