-- ==== Sys2Proof/Machine/Step.lean ====
section
/-! DEFINITION. One step of the whole machine: the engine's completion when it is due (70_reset R261), else one step of the
world outside. -/

namespace Sys2Proof.Machine

/-- One step. When a command is pending and its delay has run out, the engine completes it: the decoded command's meaning,
or ILLEGAL_CMD (R96, R227, R261). Otherwise the next bus event is performed. -/
def step (s : State) : Host.Outcome State Fault Refusal :=
  if engineDue s then
    match decode s.cmd with
    | .ok i => exec i s
    | .error _ => .next (raiseError .illegalCmd s)
  else .next (hostStep s)

/-- `s` with the command word `w` (its bits above `nbits` zero) just accepted and its completion due at once: the engine
fetches nothing (10_state R31), a CMD write hands it its command (R260). See log 11. -/
def State.withFetchWord (s : State) (nbits w : Nat) : State :=
  accepted (BitVec.ofNat 32 (w % 2 ^ nbits)) 0 s

end Sys2Proof.Machine
end

