-- ==== Sys2Proof/Machine/Script.lean ====
section
/-! DEFINITION. The host-script lines of 30_encoding R97 and R98 as the bus events they expand to. -/

namespace Sys2Proof.Machine

/-- `.word w` (R97). -/
def scriptWord (w : Word) : List BusEvent := [.write32 0x014 w]

/-- A command's line (R97): `W32 0x014, <its word>`. -/
def scriptCommand (i : Instr) : List BusEvent := scriptWord (encode i)

/-- `SET NAME, v` (R98). -/
def scriptSet (r : Reg) (v : Word) : List BusEvent := [.write32 (BitVec.ofNat 17 r.offset) v]

/-- `SETLANE j, v` (R98). -/
def scriptSetLane (j : Fin 25) (v : Lane) : List BusEvent :=
  [.write32 (BitVec.ofNat 17 (0x100 + 8 * j.val)) (laneLow v), .write32 (BitVec.ofNat 17 (0x104 + 8 * j.val)) (laneHigh v)]

/-- `GETLANE j -> name` (R98). -/
def scriptGetLane (j : Fin 25) : List BusEvent :=
  [.read32 (BitVec.ofNat 17 (0x100 + 8 * j.val)), .read32 (BitVec.ofNat 17 (0x104 + 8 * j.val))]

/-- `PUTB a, b0 b1 ...` (R98). -/
def scriptPutBytes (a : Nat) (bs : List Byte) : List BusEvent :=
  match bs with
  | [] => []
  | b :: t => .write8 (BitVec.ofNat 17 (0x10000 + a)) b :: scriptPutBytes (a + 1) t

/-- The ASCII bytes of a text, one per character, no terminator (00_scope R15). -/
def asciiBytes (t : String) : List Byte := t.toList.map fun ch => BitVec.ofNat 8 ch.toNat

/-- `PUTS a, "text"` (R98). -/
def scriptPutText (a : Nat) (t : String) : List BusEvent := scriptPutBytes a (asciiBytes t)

/-- `GETB a, n -> name` (R98). -/
def scriptGetBytes (a n : Nat) : List BusEvent :=
  (List.range n).map fun i => .read8 (BitVec.ofNat 17 (0x10000 + a + i))

/-- `RUN C` (R98). -/
def scriptRun (i : Instr) : List BusEvent := scriptCommand i ++ [.wait]

/-- `CLRDROP` (R98). -/
def scriptClrDrop : List BusEvent := [.write32 0x010 0x00000004]

/-- The bus transaction of an event (R99). WAIT is the 32-bit read of STATUS that it repeats (R98); a reset is none. -/
def transactionOf : BusEvent → Option Transaction
  | .write8 off v => some { write := true, width := 8, off := off, data := some (v.setWidth 32) }
  | .write16 off v => some { write := true, width := 16, off := off, data := some (v.setWidth 32) }
  | .write32 off v => some { write := true, width := 32, off := off, data := some v }
  | .read8 off => some { write := false, width := 8, off := off, data := none }
  | .read16 off => some { write := false, width := 16, off := off, data := none }
  | .read32 off => some { write := false, width := 32, off := off, data := none }
  | .wait => some { write := false, width := 32, off := 0x010, data := none }
  | .reset => none

end Sys2Proof.Machine
end

