-- ==== Sys2Proof/Safety.lean ====
section
/-! DEFINITION. The invariant of the engine and what a safe outcome is, in the terms the statements use. -/

namespace Sys2Proof.Machine

/-- BUF is in canonical form and lists no byte at or above BUF_BYTES (20_memory R62, R67). -/
abbrev BufInv (s : State) : Prop := Memory.wf s.buf ∧ ∀ x ∈ s.buf, x.1 < s.cfg.bufBytes

/-- The completion record is consistent: BUSY = 1 leaves DONE = 0, ERR = 0 and RES_LEN = 0 (10_state R37, 70_reset R260,
R263); a nonzero ERR or RES_LEN belongs to a completed command, never both (10_state R39, 60_exceptions R222); RES_LEN
counts bytes of BUF; only a pending command has a delay. -/
abbrev RecordInv (s : State) : Prop :=
  (s.status.busy = true → s.status.done = false ∧ s.status.err = .none ∧ s.resLen = 0) ∧
  (s.status.err ≠ .none → s.status.done = true ∧ s.resLen = 0) ∧
  (s.status.done = false → s.resLen = 0) ∧
  s.resLen.toNat ≤ s.cfg.bufBytes ∧
  (s.status.busy = false → s.delay = 0)

/-- What every step keeps. -/
abbrev State.Inv (s : State) : Prop := s.cfg.wellFormed = true ∧ BufInv s ∧ RecordInv s

/-- A safe outcome: the machine goes on, and the invariant holds. -/
def Safe (o : Host.Outcome State Fault Refusal) : Prop := ∃ t, o = .next t ∧ t.Inv

/-- `n` steps, stopping at the first stop. -/
def runSteps (n : Nat) (s : State) : Host.Outcome State Fault Refusal :=
  match n with
  | 0 => .next s
  | n + 1 =>
    match step s with
    | .next t => runSteps n t
    | .fault f => .fault f
    | .refused r => .refused r

/-- Every byte of BUF has been written since reset (70_reset R254 step 3 asks it of what a command reads). -/
abbrev BufWritten (s : State) : Prop := ∀ a < s.cfg.bufBytes, (Memory.read s.buf a).isSome = true

/-- A legal rate or output register value (60_exceptions R224): a multiple of 8 in 8 .. 1600. -/
abbrev LegalBits (r : Word) : Prop := r.toNat % 8 = 0 ∧ 8 ≤ r.toNat ∧ r.toNat ≤ 1600

/-- From `s` to `t` the completion record was written with the error code `e` and RES_LEN = `n` (70_reset R261,
60_exceptions R222): DONE = 1, BUSY = 0, DROP as before. -/
def Recorded (e : ErrCode) (n : Nat) (s t : State) : Prop :=
  t.status = { busy := false, done := true, drop := s.status.drop, err := e } ∧ t.resLen = BitVec.ofNat 32 n

/-- CTRL, CMD, the nine configuration registers, the parameters, the pending delay, and the list of coming bus events with
what the host has read are as before. -/
def KeepsRegisters (s t : State) : Prop :=
  t.cfg = s.cfg ∧ t.strictY = s.strictY ∧ t.cmd = s.cmd ∧ t.regs = s.regs ∧ t.delay = s.delay ∧
  t.env.bus = s.env.bus ∧ t.env.reads = s.env.reads ∧ t.env.delays = s.env.delays

/-- From `s` to `t` a command ended with the error `e` and did nothing else: not a lane, a BUF byte, a register, or the
random-byte port (60_exceptions R222). -/
def RaisedOnly (e : ErrCode) (s t : State) : Prop :=
  Recorded e 0 s t ∧ t.lanes = s.lanes ∧ t.buf = s.buf ∧ KeepsRegisters s t ∧ t.env = s.env

/-- Every byte of BUF outside the `n` bytes from `a` on reads as before. -/
def KeepsBufOutside (a n : Nat) (s t : State) : Prop :=
  ∀ x, x < a ∨ a + n ≤ x → Memory.read t.buf x = Memory.read s.buf x

/-- The `bs.length` bytes of BUF from `a` on hold `bs`. -/
def HoldsAt (a : Nat) (bs : List Byte) (t : State) : Prop :=
  ∀ i < bs.length, Memory.read t.buf (a + i) = bs[i]?

end Sys2Proof.Machine
end

