-- ==== Sys2Proof/Certificates/Slice0/Obligations.lean ====
section
/-! DEFINITION. The statements about the engine, each from the numbered rules of spec/. OBLIGATIONS.json lists them. -/

open Sys2Proof
open Sys2Proof.Machine

/-! ### Encoding -/

/-- The nine words of the opcode map (30_encoding R91) written out bit by bit, and five words that name no command
(95_test_vectors T30). -/
def Obligations.OpcodeMapWordsDecode : Prop :=
  decode 0b00000000000000000000000000000001#32 = .ok .clear ∧
  decode 0b00000000000000000000000000000010#32 = .ok .permute ∧
  decode 0b00000000000000000000000000000011#32 = .ok .pad ∧
  decode 0b00000000000000000000000000000100#32 = .ok .absorb ∧
  decode 0b00000000000000000000000000000101#32 = .ok .squeeze ∧
  decode 0b00000000000000000000000000000110#32 = .ok .hash ∧
  decode 0b00000000000000000000000000000111#32 = .ok .mgf1 ∧
  decode 0b00000000000000000000000000001000#32 = .ok .oaepEnc ∧
  decode 0b00000000000000000000000000001001#32 = .ok .oaepDec ∧
  decode 0x00000000#32 = .error .reservedOpcode ∧
  decode 0x0000000A#32 = .error .reservedOpcode ∧
  decode 0x000000FF#32 = .error .reservedOpcode ∧
  decode 0x00000106#32 = .error .reservedBits ∧
  decode 0x80000001#32 = .error .reservedBits

/-- Over all 2^32 words: a word decodes to a command iff it is that command's encoding, and iff it is well formed
(30_encoding R90, R91, R96: no bit of the word is dropped). -/
def Obligations.DecodeIffEncoded : Prop :=
  (∀ (w : Word) (i : Instr), decode w = .ok i ↔ w = encode i) ∧
  (∀ w : Word, commandWordWellFormed w = true ↔ ∃ i : Instr, i.wellFormed = true ∧ decode w = .ok i)

/-- 30_encoding R93 and R94: a pending word with RSV ≠ 0, or with OPC 0x00 or 0x0A-0xFF, completes with ILLEGAL_CMD and changes
nothing but the completion record. No command completes with ILLEGAL_CMD. -/
def Obligations.IllegalWordsComplete : Prop :=
  (∀ s : State, s.status.busy = true → s.delay = 0 →
    (s.cmd.extractLsb' 8 24 ≠ 0 ∨ (s.cmd.extractLsb' 0 8).toNat = 0 ∨ 0x0A ≤ (s.cmd.extractLsb' 0 8).toNat) →
    ∃ t, step s = .next t ∧ RaisedOnly .illegalCmd s t) ∧
  (∀ (i : Instr) (s t : State), exec i s = .next t → t.status.err ≠ .illegalCmd)

/-! ### The life of a command -/

/-- A step whose completion is due runs the decoded command, and adds nothing around it (70_reset R261; 30_encoding R96). Any other
step lowers a pending delay and performs the next outstanding event, which leaves the list, on the state so left: a write is a
`hostWrite` of its width and value, a read records `hostReadValue` of its width, a WAIT reads STATUS and stays while BUSY = 1, a
reset is R250 (30_encoding R97, R98; 70_reset R250, R252). Under IN_ORDER the next event is the first of the list and nothing is
drawn (20_memory R72(a)); under a weaker HOST_ORDERING it is some event of the list. The delay, the lists, and that a weaker order
may deliver any outstanding event are the model's choices (log 1, 3, 12, 15). -/
def Obligations.StepRunsTheDecodedCommand : Prop :=
  (∀ (s : State) (i : Instr), s.status.busy = true → s.delay = 0 → decode s.cmd = .ok i → step s = exec i s) ∧
  (∀ (s : State) (i : Instr), step (s.withFetchWord 32 (encode i).toNat) = exec i (s.withFetchWord 32 (encode i).toNat)) ∧
  (∀ s : State, (s.status.busy = false ∨ s.delay ≠ 0) →
    (let u := { s with
        delay := s.delay - 1
        env := { s.env with bus := s.env.bus.eraseIdx (deliveryIndex s), draws := s.env.draws + deliveryDraws s.cfg } }
     let read := fun (u : State) (n : Nat) (off : Offset) =>
       { u with env := { u.env with reads := hostReadValue u n off :: u.env.reads, draws := u.env.draws + 4 } }
     step s = .next (hostStep s) ∧
     (nextEvent s = none → step s = .next { s with delay := s.delay - 1 }) ∧
     (∀ off v, nextEvent s = some (.write8 off v) → step s = .next (hostWrite 1 off (v.setWidth 32) u)) ∧
     (∀ off v, nextEvent s = some (.write16 off v) → step s = .next (hostWrite 2 off (v.setWidth 32) u)) ∧
     (∀ off v, nextEvent s = some (.write32 off v) → step s = .next (hostWrite 4 off v u)) ∧
     (∀ off, nextEvent s = some (.read8 off) → step s = .next (read u 1 off)) ∧
     (∀ off, nextEvent s = some (.read16 off) → step s = .next (read u 2 off)) ∧
     (∀ off, nextEvent s = some (.read32 off) → step s = .next (read u 4 off)) ∧
     (nextEvent s = some .wait →
       step s = .next (read (if s.status.busy then { u with env := { u.env with bus := s.env.bus } } else u) 4 0x010)) ∧
     (nextEvent s = some .reset → step s = .next (State.resetWith s.cfg u.env)))) ∧
  (∀ s : State,
    (s.cfg.hostOrdering = .inOrder → nextEvent s = s.env.bus.head? ∧ deliveryIndex s = 0 ∧ deliveryDraws s.cfg = 0) ∧
    nextEvent s = s.env.bus[deliveryIndex s]? ∧ (s.env.bus ≠ [] → deliveryIndex s < s.env.bus.length))

/-- 70_reset R260: a 32-bit write of `w` to CMD while BUSY = 0 accepts a command in one step, whatever `w` is, and whatever order
the platform delivers accesses in. A CMD write while BUSY = 1 is not an acceptance; it is dropped and sets DROP (R262). The list of
outstanding events, from which the write is taken off, and its order of delivery are the model's choices (log 1, 15). -/
def Obligations.AcceptanceStartsTheCommand : Prop :=
  (∀ (s : State) (w : Word), s.status.busy = true →
    hostWrite 4 0x014 w s = { s with status := { s.status with drop := true } }) ∧
  ∀ (s : State) (w : Word), s.status.busy = false → nextEvent s = some (.write32 0x014 w) →
    ∃ t, step s = .next t ∧ t.cmd = w ∧
      t.status = { busy := true, done := false, drop := s.status.drop, err := .none } ∧ t.resLen = 0 ∧
      t.cfg = s.cfg ∧ t.strictY = s.strictY ∧ t.regs = s.regs ∧ t.lanes = s.lanes ∧ t.buf = s.buf ∧
      t.env.bus = s.env.bus.eraseIdx (deliveryIndex s) ∧ t.env.reads = s.env.reads ∧ t.env.rng = s.env.rng

/-- Between acceptance and completion nothing that a command reads changes, whatever the host does (20_memory R72(d), 70_reset
R261, R262): for as many steps as the delay says, in a run without a reset. The delay is the model's (log 3). -/
def Obligations.PendingCommandSeesFixedInputs : Prop :=
  ∀ (n : Nat) (s : State), s.status.busy = true → n ≤ s.delay → .reset ∉ s.env.bus →
    ∃ t, runSteps n s = .next t ∧ t.status.busy = true ∧ t.delay = s.delay - n ∧ t.cmd = s.cmd ∧ t.cfg = s.cfg ∧
      t.strictY = s.strictY ∧ t.regs = s.regs ∧ t.lanes = s.lanes ∧ t.buf = s.buf ∧ t.resLen = s.resLen ∧
      t.status.done = s.status.done ∧ t.status.err = s.status.err ∧ t.env.rng = s.env.rng

/-- Every accepted command completes (70_reset R265): without a reset, and with BUF written so that no read stops, BUSY is 0
and DONE is 1 after `delay + 1` steps. That an unwritten byte stops the machine, and that the delay counts steps, are the
model's choices (log 3, 6). -/
def Obligations.EveryAcceptedCommandCompletes : Prop :=
  ∀ s : State, s.status.busy = true → BufWritten s → .reset ∉ s.env.bus →
    ∃ t, runSteps (s.delay + 1) s = .next t ∧ t.status.busy = false ∧ t.status.done = true ∧ t.cmd = s.cmd

/-! ### The host's accesses -/

/-- The completion record as the host reads it, whatever BUSY is: STATUS with the layout of 10_state R37 and the error codes of
60_exceptions R221, CMD (R38), and RES_LEN (R39). -/
def Obligations.StatusWordLayout : Prop :=
  (∀ st : Status, st.word.toNat = st.busy.toNat + 2 * st.done.toNat + 4 * st.drop.toNat + 16 * st.err.code.toNat) ∧
  ErrCode.none.code = 0 ∧ ErrCode.config.code = 1 ∧ ErrCode.msgTooLong.code = 2 ∧ ErrCode.malformedPadding.code = 3 ∧
  ErrCode.labelMismatch.code = 4 ∧ ErrCode.illegalCmd.code = 5 ∧ ErrCode.bufRange.code = 6 ∧
  (∀ s : State, hostReadValue s 4 0x010 = s.status.word ∧ hostReadValue s 4 0x014 = s.cmd ∧
    hostReadValue s 4 0x018 = s.resLen)

/-- 70_reset R262: while BUSY = 1 an admitted write other than a STATUS write sets DROP and changes nothing else; a STATUS write
takes its effect (a 1 in bit 2 clears DROP) and does not set DROP; a write that 20_memory R61 and R62 do not admit is ignored,
whatever BUSY is. -/
def Obligations.WritesWhileBusyAreDropped : Prop :=
  ∀ (s : State) (n : Nat) (off : Offset) (v : Word), (n = 1 ∨ n = 2 ∨ n = 4) →
    (s.status.busy = true → off.toNat < 0x10000 → n = 4 → off.toNat % 4 = 0 → off ≠ 0x010 →
      hostWrite n off v s = { s with status := { s.status with drop := true } }) ∧
    (s.status.busy = true → 0x10000 ≤ off.toNat → off.toNat % n = 0 → off.toNat - 0x10000 + n ≤ s.cfg.bufBytes →
      hostWrite n off v s = { s with status := { s.status with drop := true } }) ∧
    (n = 4 → off = 0x010 →
      hostWrite n off v s = { s with status := { s.status with drop := s.status.drop && !v.getLsbD 2 } }) ∧
    (off.toNat < 0x10000 → (n ≠ 4 ∨ off.toNat % 4 ≠ 0) → hostWrite n off v s = s) ∧
    (0x10000 ≤ off.toNat → (off.toNat % n ≠ 0 ∨ s.cfg.bufBytes < off.toNat - 0x10000 + n) → hostWrite n off v s = s)

/-- 20_memory R61: an access to the register window that is not an aligned 32-bit access returns 0 on a read and is ignored on
a write; such a write does not set DROP and has no other effect, whatever BUSY is. -/
def Obligations.RegisterWindowTakesAlignedWords : Prop :=
  ∀ (s : State) (n : Nat) (off : Offset) (v : Word), (n = 1 ∨ n = 2 ∨ n = 4) → off.toNat < 0x10000 →
    (n ≠ 4 ∨ off.toNat % 4 ≠ 0) → hostReadValue s n off = 0 ∧ hostWrite n off v s = s

/-- 70_reset R263: what an admitted read returns while BUSY = 1. Lane halves and BUF bytes are one fresh unspecified word, cut
to the access width; it is the free value of this moment (log 5), of which nothing is known. -/
def Obligations.BusyReadsFollowTheTable : Prop :=
  ∀ s : State, s.Inv → s.status.busy = true →
    hostReadValue s 4 0x010 = (if s.status.drop then 0x00000005 else 0x00000001) ∧
    hostReadValue s 4 0x014 = s.cmd ∧ hostReadValue s 4 0x018 = 0 ∧ hostReadValue s 4 0x01C = 0 ∧
    hostReadValue s 4 0x00C = (if s.strictY then 1 else 0) ∧
    hostReadValue s 4 0x020 = s.regs.rateBits ∧ hostReadValue s 4 0x024 = s.regs.outBits ∧ hostReadValue s 4 0x028 = s.regs.k ∧
    hostReadValue s 4 0x030 = s.regs.srcAddr ∧ hostReadValue s 4 0x034 = s.regs.srcLen ∧
    hostReadValue s 4 0x038 = s.regs.auxAddr ∧ hostReadValue s 4 0x03C = s.regs.auxLen ∧
    hostReadValue s 4 0x040 = s.regs.dstAddr ∧ hostReadValue s 4 0x044 = s.regs.dstLen ∧
    hostReadValue s 4 0x000 = 0x4B430001 ∧ hostReadValue s 4 0x004 = capsWord s.cfg ∧
    hostReadValue s 4 0x008 = BitVec.ofNat 32 s.cfg.bufBytes ∧
    (∀ j : Fin 25, hostReadValue s 4 (BitVec.ofNat 17 (0x100 + 8 * j.val)) = Config.freeRead s.env.draws ∧
      hostReadValue s 4 (BitVec.ofNat 17 (0x104 + 8 * j.val)) = Config.freeRead s.env.draws) ∧
    (∀ (n : Nat) (off : Offset), (n = 1 ∨ n = 2 ∨ n = 4) → 0x10000 ≤ off.toNat → off.toNat % n = 0 →
      off.toNat - 0x10000 + n ≤ s.cfg.bufBytes →
      (hostReadValue s n off).toNat = (Config.freeRead s.env.draws).toNat % 2 ^ (8 * n))

/-- 20_memory R69: no read has a side effect on the engine. (The list of values read and the counter of free values are the
model's own.) -/
def Obligations.ReadsHaveNoSideEffect : Prop :=
  ∀ (s : State) (off : Offset) (e : BusEvent), (e = .read8 off ∨ e = .read16 off ∨ e = .read32 off ∨ e = .wait) →
    (busEvent e s).cfg = s.cfg ∧ (busEvent e s).lanes = s.lanes ∧ (busEvent e s).buf = s.buf ∧
    (busEvent e s).strictY = s.strictY ∧ (busEvent e s).status = s.status ∧ (busEvent e s).cmd = s.cmd ∧
    (busEvent e s).resLen = s.resLen ∧ (busEvent e s).regs = s.regs ∧ (busEvent e s).delay = s.delay

/-- 10_state R21: a lane is two 32-bit registers. While BUSY = 0 a write replaces the named half of its lane and no other
lane changes, and a read returns the named half. While BUSY = 1 the write is dropped and sets DROP (70_reset R262), and the
read is unspecified (R263): that it is `Config.freeRead` at the counter of this moment is the model's choice (log 5). -/
def Obligations.LaneHalvesReadAndWrite : Prop :=
  ∀ (s : State) (j : Fin 25) (w : Word),
    (s.status.busy = false →
      hostReadValue s 4 (BitVec.ofNat 17 (0x100 + 8 * j.val)) = s.lanes[j].extractLsb' 0 32 ∧
      hostReadValue s 4 (BitVec.ofNat 17 (0x104 + 8 * j.val)) = s.lanes[j].extractLsb' 32 32 ∧
      (∃ L : Lanes, hostWrite 4 (BitVec.ofNat 17 (0x100 + 8 * j.val)) w s = { s with lanes := L } ∧
        L[j] = s.lanes[j].extractLsb' 32 32 ++ w ∧ ∀ i : Fin 25, i ≠ j → L[i] = s.lanes[i]) ∧
      (∃ L : Lanes, hostWrite 4 (BitVec.ofNat 17 (0x104 + 8 * j.val)) w s = { s with lanes := L } ∧
        L[j] = w ++ s.lanes[j].extractLsb' 0 32 ∧ ∀ i : Fin 25, i ≠ j → L[i] = s.lanes[i])) ∧
    (s.status.busy = true → ∀ off : Offset,
      (off = BitVec.ofNat 17 (0x100 + 8 * j.val) ∨ off = BitVec.ofNat 17 (0x104 + 8 * j.val)) →
      hostWrite 4 off w s = { s with status := { s.status with drop := true } } ∧
      hostReadValue s 4 off = Config.freeRead s.env.draws)

/-- 20_memory R62, for an `n`-byte access at BUF offset `a`. A misaligned access, and one that touches an offset at or above
BUF_BYTES, returns 0 on a read and is ignored on a write. An access that passes both checks, while BUSY = 0: a write stores the low
`n` bytes of `v`, the least significant at the lowest offset, and changes nothing else; a read of `n` written bytes returns their
little-endian sum. While BUSY = 1 the write is dropped and sets DROP (70_reset R262), and the read is unspecified (R263): that it
is `Config.freeRead` at the counter of this moment, cut to the access width, is the model's choice (log 5). -/
def Obligations.BufWindowAccesses : Prop :=
  ∀ (s : State) (n a : Nat) (off : Offset) (v : Word), (n = 1 ∨ n = 2 ∨ n = 4) → off.toNat = 0x10000 + a →
    (a % n ≠ 0 ∨ s.cfg.bufBytes < a + n → hostReadValue s n off = 0 ∧ hostWrite n off v s = s) ∧
    (a % n = 0 → a + n ≤ s.cfg.bufBytes →
      (s.status.busy = false →
        (∃ m : Memory, hostWrite n off v s = { s with buf := m } ∧
          (∀ i < n, Memory.read m (a + i) = some (v.extractLsb' (8 * i) 8)) ∧
          (∀ x, x < a ∨ a + n ≤ x → Memory.read m x = Memory.read s.buf x)) ∧
        (∀ b : Nat → Byte, (∀ i < n, Memory.read s.buf (a + i) = some (b i)) →
          (hostReadValue s n off).toNat = ((List.range n).map fun i => (b i).toNat * 2 ^ (8 * i)).sum)) ∧
      (s.status.busy = true →
        hostWrite n off v s = { s with status := { s.status with drop := true } } ∧
        (hostReadValue s n off).toNat = (Config.freeRead s.env.draws).toNat % 2 ^ (8 * n)))

/-- 10_state R32, R40-R45 and R36 while BUSY = 0: each of the nine configuration registers takes all 32 bits written to it and
reads them back, CTRL takes bit 0, and no other register, lane, BUF byte or status bit changes. -/
def Obligations.ConfigurationRegistersReadBack : Prop :=
  ∀ (s : State) (r : Reg) (v : Word), s.status.busy = false →
    (r ∈ [Reg.rateBits, .outBits, .k, .srcAddr, .srcLen, .auxAddr, .auxLen, .dstAddr, .dstLen, .ctrl]) →
    (let t := hostWrite 4 (BitVec.ofNat 17 r.offset) v s
     hostReadValue t 4 (BitVec.ofNat 17 r.offset) = (if r = .ctrl then v &&& 1 else v) ∧
     (∀ r' : Reg, r' ≠ r → readReg t r' = readReg s r') ∧
     t.cfg = s.cfg ∧ t.lanes = s.lanes ∧ t.buf = s.buf ∧ t.status = s.status ∧ t.delay = s.delay ∧ t.env = s.env)

/-- 10_state R46: the words of the register window that R32 does not name read 0 and ignore writes, and a write to them while
BUSY = 1 sets DROP; so do the reserved bits of CTRL, STATUS and CAPS read 0. -/
def Obligations.ReservedWordsReadZero : Prop :=
  (∀ (s : State) (off : Offset) (v : Word), off.toNat % 4 = 0 →
    (off.toNat = 0x01C ∨ off.toNat = 0x02C ∨ (0x048 ≤ off.toNat ∧ off.toNat < 0x100) ∨
      (0x1C8 ≤ off.toNat ∧ off.toNat < 0x10000)) →
    hostReadValue s 4 off = 0 ∧
    hostWrite 4 off v s = (if s.status.busy then { s with status := { s.status with drop := true } } else s)) ∧
  (∀ s : State, readReg s .ctrl &&& 0xFFFFFFFE = 0 ∧ readReg s .status &&& 0xFFFFFF08 = 0 ∧
    readReg s .caps &&& 0xFFFFFFF8 = 0) ∧
  (∀ (s : State) (v : Word), s.status.busy = false →
    (hostWrite 4 0x00C v s = hostWrite 4 0x00C (v &&& 1) s ∧ hostWrite 4 0x010 v s = hostWrite 4 0x010 (v &&& 4) s))

/-- 10_state R33, R34, R35: what ID, CAPS and BUFSIZE read at any time; and R32: a write to a read-only register (ID, CAPS,
BUFSIZE, RES_LEN) is ignored while BUSY = 0, and only sets DROP while BUSY = 1. -/
def Obligations.ReadOnlyRegistersAreConstant : Prop :=
  ∀ (s : State) (v : Word),
    hostReadValue s 4 0x000 = 0x4B430001 ∧
    (hostReadValue s 4 0x004).toNat = s.cfg.thetaRot1.toNat + (if s.cfg.rhoTable = .transposed then 2 else 0) +
      (if s.cfg.absorbShift = .div25 then 4 else 0) ∧
    (s.cfg.wellFormed = true → (hostReadValue s 4 0x008).toNat = s.cfg.bufBytes) ∧
    (∀ off ∈ [(0x000 : Offset), 0x004, 0x008, 0x018],
      hostWrite 4 off v s = (if s.status.busy then { s with status := { s.status with drop := true } } else s))

/-! ### Reset -/

/-- 10_state R50, 70_reset R250 as the host reads them after a reset (95_test_vectors T31), for every parameter setting; and no
byte of BUF holds a value (the model's form of "unspecified", log 6). -/
def Obligations.ResetRegisterValues : Prop :=
  ∀ (c : Config) (e : Env),
    (let s := State.resetWith c e
     hostReadValue s 4 0x000 = 0x4B430001 ∧ hostReadValue s 4 0x004 = capsWord c ∧
     hostReadValue s 4 0x008 = BitVec.ofNat 32 c.bufBytes ∧
     hostReadValue s 4 0x00C = 0x00000001 ∧ hostReadValue s 4 0x010 = 0 ∧ hostReadValue s 4 0x014 = 0 ∧
     hostReadValue s 4 0x018 = 0 ∧ hostReadValue s 4 0x020 = 0 ∧ hostReadValue s 4 0x024 = 0 ∧ hostReadValue s 4 0x028 = 0 ∧
     hostReadValue s 4 0x030 = 0 ∧ hostReadValue s 4 0x034 = 0 ∧ hostReadValue s 4 0x038 = 0 ∧ hostReadValue s 4 0x03C = 0 ∧
     hostReadValue s 4 0x040 = 0 ∧ hostReadValue s 4 0x044 = 0 ∧
     (∀ j : Fin 25, s.lanes[j] = 0 ∧ hostReadValue s 4 (BitVec.ofNat 17 (0x100 + 8 * j.val)) = 0 ∧
       hostReadValue s 4 (BitVec.ofNat 17 (0x104 + 8 * j.val)) = 0) ∧
     (∀ a, Memory.read s.buf a = none))

/-- 70_reset R250, R251: a reset puts the engine in its reset state, whether or not a command was pending; the parameters and the
agents outside stay, but that the reset leaves the list (log 9). -/
def Obligations.ResetAbandonsThePendingCommand : Prop :=
  ∀ s : State, nextEvent s = some .reset → (s.status.busy = false ∨ s.delay ≠ 0) →
    ∃ t, step s = .next t ∧ t.status.busy = false ∧ t.lanes = zeroLanes ∧
      t = State.resetWith s.cfg
        { s.env with bus := s.env.bus.eraseIdx (deliveryIndex s), draws := s.env.draws + deliveryDraws s.cfg }

/-! ### Invariants -/

/-- The invariant holds right after reset, for every legal parameter setting. -/
def Obligations.ResetMeetsTheInvariant : Prop :=
  State.reset.Inv ∧ ∀ (c : Config) (e : Env), c.wellFormed = true → (State.resetWith c e).Inv

/-- Every step keeps the invariant: legal parameters; BUF in canonical form below BUF_BYTES; and the completion record
consistent: BUSY = 1 never with DONE = 1 (10_state R37), RES_LEN = 0 with an error (10_state R39, 60_exceptions R222) and while
BUSY = 1 (70_reset R263). -/
def Obligations.StepKeepsTheInvariant : Prop :=
  ∀ s t : State, s.Inv → step s = .next t → t.Inv

/-- No step changes the parameters: CAPS "is constant for the life of the engine" (10_state R34; 00_scope R19). -/
def Obligations.StepKeepsTheParameters : Prop :=
  ∀ s t : State, step s = .next t → t.cfg = s.cfg

/-- DROP is sticky (10_state R37): once 1, it stays 1 in every step but one that performs a 32-bit STATUS write with bit 2 = 1, or
a reset. -/
def Obligations.DropIsSticky : Prop :=
  ∀ s t : State, s.status.drop = true → step s = .next t → t.status.drop = true ∨
    (engineDue s = false ∧ (nextEvent s = some .reset ∨
      ∃ v : Word, v.getLsbD 2 = true ∧ nextEvent s = some (.write32 0x010 v)))

/-- The machine's only stop is a pending command's read of a BUF byte that nothing has written since reset (20_memory R71, log 6);
no command is refused. -/
def Obligations.StopsOnlyAtUnwrittenBytes : Prop :=
  ∀ s : State, (∀ r, step s ≠ .refused r) ∧
    (∀ f, step s = .fault f → s.status.busy = true ∧ s.delay = 0 ∧
      ∃ a, f = .bufUnwritten a ∧ a < s.cfg.bufBytes ∧ Memory.read s.buf a = none)

/-- Once every byte of BUF is written (70_reset R254 step 3), every step is safe, and every byte stays written until a reset. -/
def Obligations.WrittenBufferNeverStops : Prop :=
  ∀ s : State, BufWritten s →
    (s.Inv → Safe (step s)) ∧ ∃ t, step s = .next t ∧ (nextEvent s ≠ some .reset → BufWritten t)

/-! ### Errors -/

/-- A command that ends with an error writes no BUF byte, no lane and no register but STATUS and RES_LEN (60_exceptions R222,
20_memory R79). -/
def Obligations.ErrorsChangeNothingElse : Prop :=
  ∀ (i : Instr) (s t : State), exec i s = .next t → t.status.err ≠ .none →
    Recorded t.status.err 0 s t ∧ t.lanes = s.lanes ∧ t.buf = s.buf ∧ KeepsRegisters s t

/-- 60_exceptions R225: the CONFIG causes of each command, in both directions. The third cause of MGF1 is never true. -/
def Obligations.ConfigErrorCauses : Prop :=
  ∀ s : State,
    (∀ i ∈ [Instr.pad, .absorb, .hash, .mgf1, .oaepEnc, .oaepDec], ¬ LegalBits s.regs.rateBits →
      ∃ t, exec i s = .next t ∧ RaisedOnly .config s t) ∧
    (∀ i ∈ [Instr.squeeze, .hash, .mgf1, .oaepEnc, .oaepDec], ¬ LegalBits s.regs.outBits →
      ∃ t, exec i s = .next t ∧ RaisedOnly .config s t) ∧
    (s.regs.srcLen.toNat % (s.regs.rateBits.toNat / 8) ≠ 0 → ∃ t, exec .absorb s = .next t ∧ RaisedOnly .config s t) ∧
    (s.regs.k.toNat < 2 * (s.regs.outBits.toNat / 8) + 2 → ∃ t, exec .oaepDec s = .next t ∧ RaisedOnly .config s t) ∧
    (∀ (i : Instr) (t : State), exec i s = .next t → t.status.err = .config →
      (i ∈ [Instr.pad, .absorb, .hash, .mgf1, .oaepEnc, .oaepDec] ∧ ¬ LegalBits s.regs.rateBits) ∨
      (i ∈ [Instr.squeeze, .hash, .mgf1, .oaepEnc, .oaepDec] ∧ ¬ LegalBits s.regs.outBits) ∨
      (i = .absorb ∧ s.regs.srcLen.toNat % (s.regs.rateBits.toNat / 8) ≠ 0) ∨
      (i = .oaepDec ∧ s.regs.k.toNat < 2 * (s.regs.outBits.toNat / 8) + 2))

/-- 60_exceptions R226, 20_memory R67 and the order of R223. A SRC region out of range raises BUF_RANGE when the registers that the
command reads are legal, and so does the AUX region when SRC is in range; no byte of BUF is read before. An output region out of
range raises it once the inputs are read and the algorithm has raised no error; OAEP_ENC has then drawn and dropped its h seed
bytes (R222, R236; that they come from the list env.rng is the model's choice, log 4). Each clause asks legality only of the
registers its command reads (10_state R51). -/
def Obligations.RegionsAreChecked : Prop :=
  ∀ s : State,
    (∀ i ∈ [Instr.hash, .mgf1, .oaepEnc], LegalBits s.regs.rateBits → LegalBits s.regs.outBits →
      s.cfg.bufBytes < s.regs.srcAddr.toNat + s.regs.srcLen.toNat → ∃ t, exec i s = .next t ∧ RaisedOnly .bufRange s t) ∧
    (LegalBits s.regs.rateBits → s.cfg.bufBytes < s.regs.srcAddr.toNat + s.regs.srcLen.toNat →
      (∃ t, exec .pad s = .next t ∧ RaisedOnly .bufRange s t) ∧
      (s.regs.srcLen.toNat % (s.regs.rateBits.toNat / 8) = 0 → ∃ t, exec .absorb s = .next t ∧ RaisedOnly .bufRange s t)) ∧
    (LegalBits s.regs.rateBits → LegalBits s.regs.outBits → 2 * (s.regs.outBits.toNat / 8) + 2 ≤ s.regs.k.toNat →
      (s.cfg.bufBytes < s.regs.srcAddr.toNat + s.regs.k.toNat ∨ s.cfg.bufBytes < s.regs.auxAddr.toNat + s.regs.auxLen.toNat) →
      ∃ t, exec .oaepDec s = .next t ∧ RaisedOnly .bufRange s t) ∧
    (LegalBits s.regs.rateBits → LegalBits s.regs.outBits → s.regs.srcAddr.toNat + s.regs.srcLen.toNat ≤ s.cfg.bufBytes →
      s.cfg.bufBytes < s.regs.auxAddr.toNat + s.regs.auxLen.toNat →
      ∃ t, exec .oaepEnc s = .next t ∧ RaisedOnly .bufRange s t) ∧
    (LegalBits s.regs.outBits → s.cfg.bufBytes < s.regs.dstAddr.toNat + s.regs.outBits.toNat / 8 →
      ∃ t, exec .squeeze s = .next t ∧ RaisedOnly .bufRange s t) ∧
    (∀ m : List Byte, LegalBits s.regs.rateBits → s.regs.srcAddr.toNat + s.regs.srcLen.toNat ≤ s.cfg.bufBytes →
      Memory.readBytes s.buf s.regs.srcAddr.toNat s.regs.srcLen.toNat = .ok m →
      (s.cfg.bufBytes < s.regs.dstAddr.toNat + (padMsg m (s.regs.rateBits.toNat / 8)).length →
        ∃ t, exec .pad s = .next t ∧ RaisedOnly .bufRange s t) ∧
      (LegalBits s.regs.outBits → s.cfg.bufBytes < s.regs.dstAddr.toNat + s.regs.outBits.toNat / 8 →
        ∃ t, exec .hash s = .next t ∧ RaisedOnly .bufRange s t) ∧
      (LegalBits s.regs.outBits → s.cfg.bufBytes < s.regs.dstAddr.toNat + s.regs.dstLen.toNat →
        ∃ t, exec .mgf1 s = .next t ∧ RaisedOnly .bufRange s t)) ∧
    (∀ m label : List Byte, LegalBits s.regs.rateBits → LegalBits s.regs.outBits →
      s.regs.srcAddr.toNat + s.regs.srcLen.toNat ≤ s.cfg.bufBytes →
      s.regs.auxAddr.toNat + s.regs.auxLen.toNat ≤ s.cfg.bufBytes →
      Memory.readBytes s.buf s.regs.srcAddr.toNat s.regs.srcLen.toNat = .ok m →
      Memory.readBytes s.buf s.regs.auxAddr.toNat s.regs.auxLen.toNat = .ok label →
      m.length + 2 * (s.regs.outBits.toNat / 8) + 2 ≤ s.regs.k.toNat →
      s.cfg.bufBytes < s.regs.dstAddr.toNat + s.regs.k.toNat →
      ∃ t, exec .oaepEnc s = .next t ∧ Recorded .bufRange 0 s t ∧ t.lanes = s.lanes ∧ t.buf = s.buf ∧ KeepsRegisters s t ∧
        t.env.rng = s.env.rng.drop (s.regs.outBits.toNat / 8)) ∧
    (∀ E label msg : List Byte, LegalBits s.regs.rateBits → LegalBits s.regs.outBits →
      2 * (s.regs.outBits.toNat / 8) + 2 ≤ s.regs.k.toNat →
      s.regs.srcAddr.toNat + s.regs.k.toNat ≤ s.cfg.bufBytes → s.regs.auxAddr.toNat + s.regs.auxLen.toNat ≤ s.cfg.bufBytes →
      Memory.readBytes s.buf s.regs.srcAddr.toNat s.regs.k.toNat = .ok E →
      Memory.readBytes s.buf s.regs.auxAddr.toNat s.regs.auxLen.toNat = .ok label →
      oaepDecode s.cfg E label s.regs.k.toNat s.regs.rateBits.toNat s.regs.outBits.toNat s.strictY = .ok msg →
      s.cfg.bufBytes < s.regs.dstAddr.toNat + msg.length → ∃ t, exec .oaepDec s = .next t ∧ RaisedOnly .bufRange s t)

/-- 60_exceptions R228: OAEP_ENC raises MSG_TOO_LONG when `len(m) > K - 2h - 2` as integers, before any seed is drawn. -/
def Obligations.LongMessagesAreRejected : Prop :=
  ∀ (s : State) (m label : List Byte), LegalBits s.regs.rateBits → LegalBits s.regs.outBits →
    s.regs.srcAddr.toNat + s.regs.srcLen.toNat ≤ s.cfg.bufBytes →
    s.regs.auxAddr.toNat + s.regs.auxLen.toNat ≤ s.cfg.bufBytes →
    Memory.readBytes s.buf s.regs.srcAddr.toNat s.regs.srcLen.toNat = .ok m →
    Memory.readBytes s.buf s.regs.auxAddr.toNat s.regs.auxLen.toNat = .ok label →
    (m.length : Int) > (s.regs.k.toNat : Int) - 2 * ((s.regs.outBits.toNat / 8 : Nat) : Int) - 2 →
    ∃ t, exec .oaepEnc s = .next t ∧ RaisedOnly .msgTooLong s t

/-- 60_exceptions R236: only OAEP_ENC draws from the random-byte port. It draws nothing when a CONFIG check, the check of its SRC or
AUX region, or its MSG_TOO_LONG check fails; when it succeeds, and when only its output region fails, it has drawn exactly h bytes
(R222). The port's coming bytes as the list env.rng are the model's choice (log 4). -/
def Obligations.SeedIsDrawnOnceAndOnlyAfterTheChecks : Prop :=
  (∀ (i : Instr) (s t : State), exec i s = .next t → i ≠ .oaepEnc → t.env = s.env) ∧
  (∀ s t : State, exec .oaepEnc s = .next t →
    ((t.status.err = .config ∨ t.status.err = .msgTooLong) → t.env = s.env) ∧
    ((s.cfg.bufBytes < s.regs.srcAddr.toNat + s.regs.srcLen.toNat ∨
      s.cfg.bufBytes < s.regs.auxAddr.toNat + s.regs.auxLen.toNat) → t.env = s.env) ∧
    (t.status.err = .none → t.env.rng = s.env.rng.drop (s.regs.outBits.toNat / 8)) ∧
    (t.status.err = .bufRange → s.regs.srcAddr.toNat + s.regs.srcLen.toNat ≤ s.cfg.bufBytes →
      s.regs.auxAddr.toNat + s.regs.auxLen.toNat ≤ s.cfg.bufBytes →
      s.cfg.bufBytes < s.regs.dstAddr.toNat + s.regs.k.toNat ∧
      t.env.rng = s.env.rng.drop (s.regs.outBits.toNat / 8)) ∧
    (t.status.err = .none ∨ t.status.err = .config ∨ t.status.err = .msgTooLong ∨ t.status.err = .bufRange))

/-! ### Frames -/

/-- The frame of CLEAR, PERMUTE and ABSORB (10_state R51): no byte of BUF and no register but STATUS and RES_LEN changes, and
DROP stays. -/
def Obligations.LaneCommandsFrame : Prop :=
  ∀ (i : Instr) (s t : State), (i = .clear ∨ i = .permute ∨ i = .absorb) → exec i s = .next t →
    (∀ a, Memory.read t.buf a = Memory.read s.buf a) ∧ KeepsRegisters s t ∧ t.env = s.env ∧
    t.status.drop = s.status.drop ∧ t.status.busy = false ∧ t.status.done = true ∧ t.resLen = 0

/-- The frame of PAD, SQUEEZE, HASH, MGF1, OAEP_ENC and OAEP_DEC (10_state R23, R51): no lane and no register but STATUS and
RES_LEN changes, DROP stays, and every byte of BUF outside the RES_LEN bytes at DST_ADDR reads as before. -/
def Obligations.BufCommandsFrame : Prop :=
  ∀ (i : Instr) (s t : State),
    (i = .pad ∨ i = .squeeze ∨ i = .hash ∨ i = .mgf1 ∨ i = .oaepEnc ∨ i = .oaepDec) → s.cfg.wellFormed = true →
    exec i s = .next t →
    t.lanes = s.lanes ∧ KeepsRegisters s t ∧ t.status.drop = s.status.drop ∧ t.status.busy = false ∧ t.status.done = true ∧
    KeepsBufOutside s.regs.dstAddr.toNat t.resLen.toNat s t

/-! ### The permutation -/

/-- 40_permutation R121: CLEAR, its word and its effect, whatever the registers hold. -/
def Obligations.ClearZeroesEveryLane : Prop :=
  decode 0x00000001 = .ok .clear ∧ ∀ s : State, ∃ t, exec .clear s = .next t ∧ (∀ j : Fin 25, t.lanes[j] = 0) ∧ Recorded .none 0 s t ∧ t.buf = s.buf ∧
    KeepsRegisters s t ∧ t.env = s.env

/-- 40_permutation R122: PERMUTE, its word and its effect, whatever the registers hold. -/
def Obligations.PermuteAppliesThePermutation : Prop :=
  decode 0x00000002 = .ok .permute ∧ ∀ s : State, ∃ t, exec .permute s = .next t ∧ t.lanes = keccakP s.cfg s.lanes ∧ Recorded .none 0 s t ∧ t.buf = s.buf ∧
    KeepsRegisters s t ∧ t.env = s.env

/-- 40_permutation R113: theta. Its formula, theta(0) = 0, and, without the rotation, that bit b of every output lane depends
only on bit b of the input lanes. -/
def Obligations.ThetaMixesColumns : Prop :=
  ∀ c : Config,
    (∀ (A : Lanes) (x y : Nat), x < 5 → y < 5 →
      (let C := fun x => laneAt A x 0 ^^^ laneAt A x 1 ^^^ laneAt A x 2 ^^^ laneAt A x 3 ^^^ laneAt A x 4
       laneAt (theta c A) x y =
         laneAt A x y ^^^ (C ((x + 4) % 5) ^^^ (if c.thetaRot1 then rol64 (C ((x + 1) % 5)) 1 else C ((x + 1) % 5))))) ∧
    theta c zeroLanes = zeroLanes ∧
    (c.thetaRot1 = false → ∀ (A B : Lanes) (b : Nat), (∀ j : Fin 25, A[j].getLsbD b = B[j].getLsbD b) →
      ∀ j : Fin 25, (theta c A)[j].getLsbD b = (theta c B)[j].getLsbD b)

/-- 40_permutation R114 with the table of R111, and rol64 of 00_scope R11. -/
def Obligations.RhoRotatesByTheTable : Prop :=
  (∀ (c : Config) (A : Lanes) (x y : Nat), x < 5 → y < 5 →
    (let T := [[0, 1, 62, 28, 27], [36, 44, 6, 55, 20], [3, 10, 43, 25, 39], [41, 45, 15, 21, 8], [18, 2, 61, 56, 14]]
     laneAt (rho c A) x y =
       rol64 (laneAt A x y) (if c.rhoTable = .docXY then (T.getD x []).getD y 0 else (T.getD y []).getD x 0))) ∧
  (∀ (v : Lane) (n : Nat), rol64 v n = if n % 64 = 0 then v else (v <<< (n % 64)) ||| (v >>> (64 - n % 64)))

/-- 40_permutation R115: pi, its map of positions is one to one, and lane 0 stays. -/
def Obligations.PiMovesEveryLane : Prop :=
  (∀ (A : Lanes) (x y : Nat), x < 5 → y < 5 → laneAt (piStep A) y ((2 * x + 3 * y) % 5) = laneAt A x y) ∧
  (∀ x y x' y' : Nat, x < 5 → y < 5 → x' < 5 → y' < 5 →
    y + 5 * ((2 * x + 3 * y) % 5) = y' + 5 * ((2 * x' + 3 * y') % 5) → x = x' ∧ y = y') ∧
  (∀ A : Lanes, laneAt (piStep A) 0 0 = laneAt A 0 0)

/-- 40_permutation R116: chi, every operand a lane of the input state; chi(0) = 0. -/
def Obligations.ChiCombinesRows : Prop :=
  (∀ (A : Lanes) (x y : Nat), x < 5 → y < 5 →
    laneAt (chi A) x y = laneAt A x y ^^^ (~~~ laneAt A ((x + 1) % 5) y &&& laneAt A ((x + 2) % 5) y)) ∧
  chi zeroLanes = zeroLanes

/-- 40_permutation R117: iota. -/
def Obligations.IotaTouchesLaneZero : Prop :=
  ∀ (c : Config) (r : Fin 24) (A : Lanes),
    (iota c r A)[0] = A[0] ^^^ c.rcTable[r] ∧ ∀ j : Fin 25, j ≠ 0 → (iota c r A)[j] = A[j]

/-- 40_permutation R118, R119: the permutation is the 24 rounds in order, each of the five steps in order. -/
def Obligations.PermutationRunsTheRoundsInOrder : Prop :=
  ∀ (c : Config) (A : Lanes) (g : Nat → Lanes), g 0 = A →
    (∀ r : Fin 24, g (r.val + 1) = iota c r (chi (piStep (rho c (theta c (g r.val)))))) → keccakP c A = g 24

/-- The value 40_permutation R119 gives for the default parameters, with two more lanes of 95_test_vectors T1; and the first lane
of the FIPS 202 setting (T2). -/
def Obligations.PermutationOfTheZeroState : Prop :=
  (keccakP defaultConfig zeroLanes)[0] = 0x90BBCAE3F19EF0A3 ∧
  (keccakP defaultConfig zeroLanes)[1] = 0x8A103BBA0A6F3C3B ∧
  (keccakP defaultConfig zeroLanes)[24] = 0x555626606A751C0B ∧
  (keccakP { defaultConfig with thetaRot1 := true, rhoTable := .transposed } zeroLanes)[0] = 0xF1258F7940E1DDE7

/-! ### Padding and the sponge -/

/-- 41_padding R140: the padding bytes for each q. -/
def Obligations.PaddingBytesByCount : Prop :=
  ∀ (m : List Byte) (R : Nat), 1 ≤ R →
    (let q := R - m.length % R
     1 ≤ q ∧ q ≤ R ∧
     (q = 1 → padMsg m R = m ++ [0x86]) ∧
     (q = 2 → padMsg m R = m ++ [0x06, 0x80]) ∧
     (3 ≤ q → padMsg m R = m ++ [0x06] ++ List.replicate (q - 2) 0x00 ++ [0x80]))

/-- 41_padding R142: the padding laws. -/
def Obligations.PaddingLaws : Prop :=
  ∀ (m : List Byte) (R : Nat), 1 ≤ R →
    (padMsg m R).length % R = 0 ∧ m.length < (padMsg m R).length ∧ (padMsg m R).length ≤ m.length + R ∧
    (padMsg m R).take m.length = m

/-- 41_padding R141: where PAD completes, and what it leaves. -/
def Obligations.PadWritesThePaddedMessage : Prop :=
  ∀ (s : State) (m : List Byte), LegalBits s.regs.rateBits →
    s.regs.srcAddr.toNat + s.regs.srcLen.toNat ≤ s.cfg.bufBytes →
    Memory.readBytes s.buf s.regs.srcAddr.toNat s.regs.srcLen.toNat = .ok m →
    s.regs.dstAddr.toNat + (padMsg m (s.regs.rateBits.toNat / 8)).length ≤ s.cfg.bufBytes →
    (let P := padMsg m (s.regs.rateBits.toNat / 8)
     ∃ t, exec .pad s = .next t ∧ Recorded .none P.length s t ∧ HoldsAt s.regs.dstAddr.toNat P t ∧
       KeepsBufOutside s.regs.dstAddr.toNat P.length s t ∧ t.lanes = s.lanes ∧ KeepsRegisters s t ∧ t.env = s.env)

/-- 42_sponge R150: absorb starts from the all-zero state, takes the blocks in order and permutes after each; an empty message
leaves the all-zero state. -/
def Obligations.AbsorbTakesBlocksInOrder : Prop :=
  ∀ (c : Config) (Pm blk : List Byte) (R : Nat), 1 ≤ R → Pm.length % R = 0 → blk.length = R →
    absorb c [] R = zeroLanes ∧ absorb c (Pm ++ blk) R = keccakP c (xorBytes c 0 blk (absorb c Pm R))

/-- 42_sponge R150: byte i of a block is XORed into lane i mod 25 at the bit offset sh(i), and into no other lane. -/
def Obligations.AbsorbedBytesLandByPosition : Prop :=
  ∀ (c : Config) (blk : List Byte) (A : Lanes) (j : Fin 25),
    (xorBytes c 0 blk A)[j] =
      ((List.range blk.length).filter fun i => decide (i % 25 = j.val)).foldl
        (fun l i => l ^^^ ((blk.getD i 0).setWidth 64 <<< (if c.absorbShift = .zero then 0 else 8 * (i / 25)))) A[j]

/-- 42_sponge R152: where ABSORB completes, and what it leaves; the old lanes are discarded. -/
def Obligations.AbsorbReplacesTheLaneFile : Prop :=
  ∀ (s : State) (Pm : List Byte), LegalBits s.regs.rateBits →
    s.regs.srcLen.toNat % (s.regs.rateBits.toNat / 8) = 0 →
    s.regs.srcAddr.toNat + s.regs.srcLen.toNat ≤ s.cfg.bufBytes →
    Memory.readBytes s.buf s.regs.srcAddr.toNat s.regs.srcLen.toNat = .ok Pm →
    ∃ t, exec .absorb s = .next t ∧ t.lanes = absorb s.cfg Pm (s.regs.rateBits.toNat / 8) ∧ Recorded .none 0 s t ∧
      t.buf = s.buf ∧ KeepsRegisters s t ∧ t.env = s.env

/-- 42_sponge R151: byte i of the squeeze output, for n ≤ 200. -/
def Obligations.SqueezeBytes : Prop :=
  ∀ (A : Lanes) (n : Nat), n ≤ 200 → (squeeze A n).length = n ∧
    ∀ i < n, (squeeze A n)[i]? = some ((laneAt A (i / 8 % 5) (i / 8 / 5)).extractLsb' (8 * (i % 8)) 8)

/-- 42_sponge R153: where SQUEEZE completes, and what it leaves; it does not change the lanes. -/
def Obligations.SqueezeWritesTheLaneBytes : Prop :=
  ∀ s : State, LegalBits s.regs.outBits → s.regs.dstAddr.toNat + s.regs.outBits.toNat / 8 ≤ s.cfg.bufBytes →
    (let n := s.regs.outBits.toNat / 8
     ∃ t, exec .squeeze s = .next t ∧ Recorded .none n s t ∧ HoldsAt s.regs.dstAddr.toNat (squeeze s.lanes n) t ∧
       KeepsBufOutside s.regs.dstAddr.toNat n s t ∧ t.lanes = s.lanes ∧ KeepsRegisters s t ∧ t.env = s.env)

/-! ### HASH -/

/-- 43_hash R170, R171: where HASH completes, and what it leaves. -/
def Obligations.HashWritesTheDigest : Prop :=
  ∀ (s : State) (m : List Byte), LegalBits s.regs.rateBits → LegalBits s.regs.outBits →
    s.regs.srcAddr.toNat + s.regs.srcLen.toNat ≤ s.cfg.bufBytes →
    Memory.readBytes s.buf s.regs.srcAddr.toNat s.regs.srcLen.toNat = .ok m →
    s.regs.dstAddr.toNat + s.regs.outBits.toNat / 8 ≤ s.cfg.bufBytes →
    (let R := s.regs.rateBits.toNat / 8
     let n := s.regs.outBits.toNat / 8
     let digest := squeeze (keccakP s.cfg (absorb s.cfg (padMsg m R) R)) n
     ∃ t, exec .hash s = .next t ∧ Recorded .none n s t ∧ HoldsAt s.regs.dstAddr.toNat digest t ∧ digest.length = n ∧
       KeepsBufOutside s.regs.dstAddr.toNat n s t ∧ t.lanes = s.lanes ∧ KeepsRegisters s t ∧ t.env = s.env ∧
       (padMsg m R).length / R = m.length / R + 1)

/-- 43_hash R172: PAD to Q, ABSORB from Q, PERMUTE, SQUEEZE to D succeed only where HASH to D does, write the same bytes at D,
overwrite BUF at Q with the padded message, and leave the permuted absorbed state in the lane file, where HASH leaves the lanes
as they were. -/
def Obligations.HashIsItsSpongeDecomposition : Prop :=
  ∀ (s s1 s2 s3 s4 : State) (q d : Word), s.cfg.wellFormed = true →
    exec .pad { s with regs := { s.regs with dstAddr := q } } = .next s1 → s1.status.err = .none →
    exec .absorb { s1 with regs := { s1.regs with srcAddr := q, srcLen := s1.resLen } } = .next s2 → s2.status.err = .none →
    exec .permute s2 = .next s3 →
    exec .squeeze { s3 with regs := { s3.regs with dstAddr := d } } = .next s4 → s4.status.err = .none →
    ∃ t m, exec .hash { s with regs := { s.regs with dstAddr := d } } = .next t ∧ t.status.err = .none ∧
      Memory.readBytes s.buf s.regs.srcAddr.toNat s.regs.srcLen.toNat = .ok m ∧
      HoldsAt q.toNat (padMsg m (s.regs.rateBits.toNat / 8)) s1 ∧
      (∀ i < s.regs.outBits.toNat / 8, Memory.read s4.buf (d.toNat + i) = Memory.read t.buf (d.toNat + i)) ∧
      s4.resLen = t.resLen ∧ t.lanes = s.lanes ∧
      s4.lanes = keccakP s.cfg (absorb s.cfg (padMsg m (s.regs.rateBits.toNat / 8)) (s.regs.rateBits.toNat / 8))

/-- 43_hash R173: two successful HASH commands with equal RATE_BITS, OUT_BITS and message bytes, on engines with the same
parameters, write equal bytes, whatever else their states hold. -/
def Obligations.HashDependsOnlyOnItsMessage : Prop :=
  ∀ (s s' t t' : State) (m : List Byte), s'.cfg = s.cfg → s'.regs.rateBits = s.regs.rateBits →
    s'.regs.outBits = s.regs.outBits →
    Memory.readBytes s.buf s.regs.srcAddr.toNat s.regs.srcLen.toNat = .ok m →
    Memory.readBytes s'.buf s'.regs.srcAddr.toNat s'.regs.srcLen.toNat = .ok m →
    exec .hash s = .next t → t.status.err = .none → exec .hash s' = .next t' → t'.status.err = .none →
    t'.resLen = t.resLen ∧ ∀ i < s.regs.outBits.toNat / 8,
      Memory.read t'.buf (s'.regs.dstAddr.toNat + i) = Memory.read t.buf (s.regs.dstAddr.toNat + i)

/-! ### MGF1 -/

/-- 44_mgf R180: mgf1 is the concatenation of exactly `ceil(n / h)` hashes, the counter from 0 on in 4 big-endian bytes, cut
to n bytes. -/
def Obligations.Mgf1ConcatenatesHashes : Prop :=
  ∀ (c : Config) (seed : List Byte) (n r o : Nat), 1 ≤ o / 8 →
    mgf1 c seed n r o =
      (((List.range ((n + o / 8 - 1) / (o / 8))).map fun i =>
        hashMsg c (seed ++ [BitVec.ofNat 8 (i / 2 ^ 24), BitVec.ofNat 8 (i / 2 ^ 16), BitVec.ofNat 8 (i / 2 ^ 8),
          BitVec.ofNat 8 i]) r o).flatten).take n

/-- 44_mgf R182: the MGF1 laws. -/
def Obligations.Mgf1Laws : Prop :=
  ∀ (c : Config) (seed : List Byte) (r o : Nat), 1 ≤ o / 8 →
    (∀ n : Nat, (mgf1 c seed n r o).length = n) ∧
    (∀ n1 n2 : Nat, n1 ≤ n2 → mgf1 c seed n1 r o = (mgf1 c seed n2 r o).take n1) ∧
    mgf1 c seed (o / 8) r o = hashMsg c (seed ++ [0x00, 0x00, 0x00, 0x00]) r o

/-- 44_mgf R181: where MGF1 completes, and what it leaves. -/
def Obligations.Mgf1WritesTheMask : Prop :=
  ∀ (s : State) (seed : List Byte), LegalBits s.regs.rateBits → LegalBits s.regs.outBits →
    s.regs.srcAddr.toNat + s.regs.srcLen.toNat ≤ s.cfg.bufBytes →
    Memory.readBytes s.buf s.regs.srcAddr.toNat s.regs.srcLen.toNat = .ok seed →
    s.regs.dstAddr.toNat + s.regs.dstLen.toNat ≤ s.cfg.bufBytes →
    (let n := s.regs.dstLen.toNat
     let mask := mgf1 s.cfg seed n s.regs.rateBits.toNat s.regs.outBits.toNat
     ∃ t, exec .mgf1 s = .next t ∧ Recorded .none n s t ∧ HoldsAt s.regs.dstAddr.toNat mask t ∧ mask.length = n ∧
       KeepsBufOutside s.regs.dstAddr.toNat n s t ∧ t.lanes = s.lanes ∧ KeepsRegisters s t ∧ t.env = s.env)

/-! ### OAEP -/

/-- 45_oaep R190, R191, R192: where OAEP_ENC completes, and the block it writes, of exactly K bytes with 0x00 in front, from the
h bytes the random-byte port answers (free values, log 4). -/
def Obligations.OaepEncWritesTheBlock : Prop :=
  ∀ (s : State) (m label : List Byte), LegalBits s.regs.rateBits → LegalBits s.regs.outBits →
    s.regs.srcAddr.toNat + s.regs.srcLen.toNat ≤ s.cfg.bufBytes →
    s.regs.auxAddr.toNat + s.regs.auxLen.toNat ≤ s.cfg.bufBytes →
    Memory.readBytes s.buf s.regs.srcAddr.toNat s.regs.srcLen.toNat = .ok m →
    Memory.readBytes s.buf s.regs.auxAddr.toNat s.regs.auxLen.toNat = .ok label →
    m.length + 2 * (s.regs.outBits.toNat / 8) + 2 ≤ s.regs.k.toNat →
    s.regs.dstAddr.toNat + s.regs.k.toNat ≤ s.cfg.bufBytes →
    (let k := s.regs.k.toNat
     let r := s.regs.rateBits.toNat
     let o := s.regs.outBits.toNat
     let h := o / 8
     let seed := rngBytes s.env h
     let db := hashMsg s.cfg label r o ++ List.replicate (k - 2 * h - 2 - m.length) 0x00 ++ [0x01] ++ m
     let maskedDB := xorStr db (mgf1 s.cfg seed (k - h - 1) r o)
     let maskedSeed := xorStr seed (mgf1 s.cfg maskedDB h r o)
     ∃ t, exec .oaepEnc s = .next t ∧ Recorded .none k s t ∧
       HoldsAt s.regs.dstAddr.toNat ([0x00] ++ maskedSeed ++ maskedDB) t ∧
       seed.length = h ∧ maskedSeed.length = h ∧ db.length = k - h - 1 ∧ maskedDB.length = k - h - 1 ∧
       KeepsBufOutside s.regs.dstAddr.toNat k s t ∧ t.lanes = s.lanes ∧ KeepsRegisters s t ∧
       t.env.rng = s.env.rng.drop h)

/-- 45_oaep R193, R197: where OAEP_DEC completes, and the message it writes. `db` is the block with its two masks undone, and
`i` the place of the first 0x01 of its rest. -/
def Obligations.OaepDecWritesTheMessage : Prop :=
  ∀ (s : State) (E label seed db : List Byte) (i : Nat), LegalBits s.regs.rateBits → LegalBits s.regs.outBits →
    2 * (s.regs.outBits.toNat / 8) + 2 ≤ s.regs.k.toNat →
    s.regs.srcAddr.toNat + s.regs.k.toNat ≤ s.cfg.bufBytes →
    s.regs.auxAddr.toNat + s.regs.auxLen.toNat ≤ s.cfg.bufBytes →
    Memory.readBytes s.buf s.regs.srcAddr.toNat s.regs.k.toNat = .ok E →
    Memory.readBytes s.buf s.regs.auxAddr.toNat s.regs.auxLen.toNat = .ok label →
    (s.strictY = true → E[0]? = some 0x00) →
    seed = xorStr ((E.drop 1).take (s.regs.outBits.toNat / 8))
      (mgf1 s.cfg (E.drop (1 + s.regs.outBits.toNat / 8)) (s.regs.outBits.toNat / 8) s.regs.rateBits.toNat s.regs.outBits.toNat) →
    db = xorStr (E.drop (1 + s.regs.outBits.toNat / 8))
      (mgf1 s.cfg seed (s.regs.k.toNat - s.regs.outBits.toNat / 8 - 1) s.regs.rateBits.toNat s.regs.outBits.toNat) →
    (db.drop (s.regs.outBits.toNat / 8))[i]? = some 0x01 →
    (∀ j < i, (db.drop (s.regs.outBits.toNat / 8))[j]? ≠ some 0x01) →
    db.take (s.regs.outBits.toNat / 8) = hashMsg s.cfg label s.regs.rateBits.toNat s.regs.outBits.toNat →
    s.regs.dstAddr.toNat + (db.drop (s.regs.outBits.toNat / 8 + i + 1)).length ≤ s.cfg.bufBytes →
    (let msg := db.drop (s.regs.outBits.toNat / 8 + i + 1)
     ∃ t, exec .oaepDec s = .next t ∧ Recorded .none msg.length s t ∧ HoldsAt s.regs.dstAddr.toNat msg t ∧
       KeepsBufOutside s.regs.dstAddr.toNat msg.length s t ∧ t.lanes = s.lanes ∧ KeepsRegisters s t ∧ t.env = s.env)

/-- 60_exceptions R229, R230 and 45_oaep R195: the errors of a decode that passed its register and region checks. A leading byte
other than 0x00 under STRICT_Y = 1 first; then a missing delimiter, whatever the label; then a wrong label hash. -/
def Obligations.DecodeErrorsInOrder : Prop :=
  ∀ (s : State) (E label : List Byte), LegalBits s.regs.rateBits → LegalBits s.regs.outBits →
    2 * (s.regs.outBits.toNat / 8) + 2 ≤ s.regs.k.toNat →
    s.regs.srcAddr.toNat + s.regs.k.toNat ≤ s.cfg.bufBytes →
    s.regs.auxAddr.toNat + s.regs.auxLen.toNat ≤ s.cfg.bufBytes →
    Memory.readBytes s.buf s.regs.srcAddr.toNat s.regs.k.toNat = .ok E →
    Memory.readBytes s.buf s.regs.auxAddr.toNat s.regs.auxLen.toNat = .ok label →
    (let h := s.regs.outBits.toNat / 8
     let db := oaepUnmask s.cfg E s.regs.k.toNat s.regs.rateBits.toNat s.regs.outBits.toNat
     (s.strictY = true → E[0]? ≠ some 0x00 → ∃ t, exec .oaepDec s = .next t ∧ RaisedOnly .malformedPadding s t) ∧
     ((s.strictY = true → E[0]? = some 0x00) → 0x01 ∉ db.drop h →
       ∃ t, exec .oaepDec s = .next t ∧ RaisedOnly .malformedPadding s t) ∧
     ((s.strictY = true → E[0]? = some 0x00) → 0x01 ∈ db.drop h →
       db.take h ≠ hashMsg s.cfg label s.regs.rateBits.toNat s.regs.outBits.toNat →
       ∃ t, exec .oaepDec s = .next t ∧ RaisedOnly .labelMismatch s t))

/-- 45_oaep R194. The functions: decoding an encoded block with the same label returns the message, for every seed draw and both
values of STRICT_Y. The engine: after a successful OAEP_ENC, an OAEP_DEC from the encoder's DST_ADDR with the same K, RATE_BITS,
OUT_BITS and label bytes, into a region that holds the message, writes the message and sets RES_LEN to its length. -/
def Obligations.EncodeThenDecodeReturnsTheMessage : Prop :=
  (∀ (c : Config) (m label seed : List Byte) (k r o : Nat) (st : Bool), 1 ≤ o / 8 → 2 * (o / 8) + 2 ≤ k →
    m.length ≤ k - 2 * (o / 8) - 2 → seed.length = o / 8 →
    ∃ E, oaepEncode c m label k r o seed = .ok E ∧ E.length = k ∧ oaepDecode c E label k r o st = .ok m) ∧
  (∀ (s t : State) (m label : List Byte) (auxAddr auxLen d : Word) (st : Bool), s.cfg.wellFormed = true →
    exec .oaepEnc s = .next t → t.status.err = .none →
    Memory.readBytes s.buf s.regs.srcAddr.toNat s.regs.srcLen.toNat = .ok m →
    Memory.readBytes s.buf s.regs.auxAddr.toNat s.regs.auxLen.toNat = .ok label →
    Memory.readBytes t.buf auxAddr.toNat auxLen.toNat = .ok label →
    auxAddr.toNat + auxLen.toNat ≤ s.cfg.bufBytes → d.toNat + m.length ≤ s.cfg.bufBytes →
    ∃ u, exec .oaepDec { t with strictY := st, regs := { t.regs with
        srcAddr := s.regs.dstAddr, auxAddr := auxAddr, auxLen := auxLen, dstAddr := d } } = .next u ∧
      u.status.err = .none ∧ u.resLen.toNat = m.length ∧ HoldsAt d.toNat m u)

/-- 45_oaep R196. The functions: an encoded block has k bytes, and decoding it under a label with another hash raises
LABEL_MISMATCH. The engine: a successful OAEP_ENC writes exactly K bytes at its DST_ADDR, and an OAEP_DEC from there with the same K,
RATE_BITS and OUT_BITS, under label bytes with another hash, raises LABEL_MISMATCH, whatever STRICT_Y and its DST_ADDR are. -/
def Obligations.WrongLabelIsDetected : Prop :=
  (∀ (c : Config) (m label label2 seed E : List Byte) (k r o : Nat) (st : Bool), 1 ≤ o / 8 → seed.length = o / 8 →
    oaepEncode c m label k r o seed = .ok E → hashMsg c label2 r o ≠ hashMsg c label r o →
    E.length = k ∧ oaepDecode c E label2 k r o st = .error .labelMismatch) ∧
  (∀ s t : State, exec .oaepEnc s = .next t → t.status.err = .none →
    (t.resLen = s.regs.k ∧ KeepsBufOutside s.regs.dstAddr.toNat s.regs.k.toNat s t ∧
      ∃ E : List Byte, E.length = s.regs.k.toNat ∧ HoldsAt s.regs.dstAddr.toNat E t) ∧
    (∀ (label label2 : List Byte) (auxAddr auxLen d : Word) (st : Bool),
      Memory.readBytes s.buf s.regs.auxAddr.toNat s.regs.auxLen.toNat = .ok label →
      Memory.readBytes t.buf auxAddr.toNat auxLen.toNat = .ok label2 → auxAddr.toNat + auxLen.toNat ≤ s.cfg.bufBytes →
      hashMsg s.cfg label2 s.regs.rateBits.toNat s.regs.outBits.toNat ≠
        hashMsg s.cfg label s.regs.rateBits.toNat s.regs.outBits.toNat →
      (let u := { t with strictY := st, regs := { t.regs with
          srcAddr := s.regs.dstAddr, auxAddr := auxAddr, auxLen := auxLen, dstAddr := d } }
       ∃ v, exec .oaepDec u = .next v ∧ RaisedOnly .labelMismatch u v)))
end

