-- ==== Sys2Proof/Laws/Functions.lean ====
section
/-! SUPPORT. Lengths of the byte strings that the commands compute, and the loop of MGF1 by its iterations. -/

namespace Sys2Proof.Machine

/-- `q` lies in 1 .. rate_bytes (41_padding R140). -/
theorem padCount_bounds (len : Nat) {rate : Nat} (h : 1 ≤ rate) : 1 ≤ padCount len rate ∧ padCount len rate ≤ rate := by
  have := Nat.mod_lt len h
  unfold padCount
  omega

/-- The padding is `q` bytes long. -/
theorem padBytes_length {q : Nat} (h : 1 ≤ q) : (padBytes q).length = q := by
  unfold padBytes
  split
  · simp_all
  · split
    · simp_all
    · simp; omega

theorem padMsg_length (m : List Byte) {rate : Nat} (h : 1 ≤ rate) :
    (padMsg m rate).length = m.length + padCount m.length rate := by
  rw [padMsg, List.length_append, padBytes_length (padCount_bounds m.length h).1]

@[simp] theorem squeeze_length (A : Lanes) (n : Nat) : (squeeze A n).length = n := by
  simp [squeeze]

@[simp] theorem hashMsg_length (c : Config) (m : List Byte) (r o : Nat) : (hashMsg c m r o).length = o / 8 := by
  simp [hashMsg]

@[simp] theorem be32_length (c : Nat) : (be32 c).length = 4 := rfl

/-- The loop stops once it has `n` bytes. -/
theorem mgfLoop_done (H : List Byte → List Byte) (seed : List Byte) (n fuel : Nat) (T : List Byte) (c : Nat) (h : n ≤ T.length) :
    mgfLoop H seed n fuel T c = T := by
  cases fuel with
  | zero => rfl
  | succ f => simp [mgfLoop, Nat.not_lt.2 h]

/-- One iteration of the loop. -/
theorem mgfLoop_more (H : List Byte → List Byte) (seed : List Byte) (n fuel : Nat) (T : List Byte) (c : Nat) (h : T.length < n) :
    mgfLoop H seed n (fuel + 1) T c = mgfLoop H seed n fuel (T ++ H (seed ++ be32 c)) (c + 1) := by
  simp [mgfLoop, h]

/-- With fuel for the missing bytes and blocks of at least one byte, the loop ends with at least `n` bytes. -/
theorem mgfLoop_length (H : List Byte → List Byte) (seed : List Byte) (n : Nat) (hH : ∀ m, 1 ≤ (H m).length) :
    ∀ (fuel : Nat) (T : List Byte) (c : Nat), n ≤ T.length + fuel → n ≤ (mgfLoop H seed n fuel T c).length := by
  intro fuel
  induction fuel with
  | zero => intro T c h; simpa [mgfLoop] using h
  | succ f ih =>
    intro T c h
    by_cases hT : T.length < n
    · rw [mgfLoop_more H seed n f T c hT]
      refine ih _ _ ?_
      have := hH (seed ++ be32 c)
      rw [List.length_append]
      omega
    · rw [mgfLoop_done H seed n (f + 1) T c (by omega)]
      omega

/-- mgf1 answers exactly `n` bytes when a hash has at least one byte. -/
theorem mgf1_length (c : Config) (seed : List Byte) (n r o : Nat) (h : 1 ≤ o / 8) : (mgf1 c seed n r o).length = n := by
  rw [mgf1, List.length_take]
  have := mgfLoop_length (fun m => hashMsg c m r o) seed n (fun m => by simpa using h) n [] 0 (by simp)
  omega

@[simp] theorem xorStr_length (a b : List Byte) : (xorStr a b).length = min a.length b.length := by
  simp [xorStr]

/-- XOR with the same mask twice gives the string back. -/
theorem xorStr_xorStr (a b : List Byte) (h : a.length = b.length) : xorStr (xorStr a b) b = a := by
  induction a generalizing b with
  | nil => simp [xorStr]
  | cons x a ih =>
    cases b with
    | nil => simp at h
    | cons y b =>
      have := ih b (by simpa using h)
      simp only [xorStr, List.zipWith_cons_cons, List.cons.injEq] at this ⊢
      exact ⟨by rw [BitVec.xor_assoc, BitVec.xor_self, BitVec.xor_zero], this⟩

theorem oaepDb_length (lHash m : List Byte) {k h : Nat} (hl : lHash.length = h) (hf : oaepFits m.length k h = true) :
    (oaepDb lHash m k h).length = k - h - 1 := by
  simp only [oaepFits, decide_eq_true_eq] at hf
  simp [oaepDb, hl]
  omega

/-- The block has exactly `k` bytes (45_oaep R190). -/
theorem oaepMask_length (c : Config) (db seed : List Byte) {k : Nat} (r o : Nat) (ho : 1 ≤ o / 8) (hk : o / 8 + 1 ≤ k)
    (hd : db.length = k - o / 8 - 1) (hs : seed.length = o / 8) : (oaepMask c db seed k r o).length = k := by
  simp only [oaepMask, List.length_append, List.length_cons, List.length_nil, xorStr_length, mgf1_length _ _ _ _ _ ho, hd, hs]
  omega

theorem oaepDecode_length {c : Config} {E label msg : List Byte} {k r o : Nat} {st : Bool} (ho : 1 ≤ o / 8) (hk : 2 * (o / 8) + 2 ≤ k)
    (h : oaepDecode c E label k r o st = .ok msg) : msg.length + 2 * (o / 8) + 2 ≤ k := by
  unfold oaepDecode at h
  simp only at h
  split at h
  · cases h
  · split at h
    · cases h
    · rename_i i hi
      split at h
      · cases h
      · cases h
        have hl : (oaepUnmask c E k r o).length ≤ k - o / 8 - 1 := by
          simp only [oaepUnmask, xorStr_length, mgf1_length _ _ _ _ _ ho]
          omega
        simp only [List.length_drop]
        have hi' := (List.findIdx?_eq_some_iff_findIdx_eq.1 hi).1
        simp only [List.length_drop] at hi'
        omega

end Sys2Proof.Machine
end

