-- ==== Sys2Proof/Laws/Memory.lean ====
section
/-! SUPPORT. The laws of BUF: a byte read after a write, the canonical form, and regions (20_memory R66). -/

namespace Sys2Proof.Machine

/-- A byte just written reads as written. -/
@[simp] theorem Memory.read_write_same (m : Memory) (a : Nat) (b : Byte) : Memory.read (Memory.write m a b) a = some b := by
  induction m with
  | nil => simp [Memory.write, Memory.read]
  | cons x t ih =>
    obtain ⟨x, c⟩ := x
    unfold Memory.write
    split
    · simp [Memory.read]
    · split
      · simp [Memory.read]
      · rename_i h
        have hne : x ≠ a := fun e => h e.symm
        simp [Memory.read, ih, hne]

/-- A write leaves every other byte as it was. -/
theorem Memory.read_write_ne (m : Memory) {a a' : Nat} (b : Byte) (h : a' ≠ a) :
    Memory.read (Memory.write m a b) a' = Memory.read m a' := by
  induction m with
  | nil => simp [Memory.write, Memory.read, h.symm]
  | cons x t ih =>
    obtain ⟨x, c⟩ := x
    unfold Memory.write
    split
    · simp [Memory.read, h.symm]
    · split
      · rename_i e
        subst e
        simp [Memory.read, h.symm]
      · simp [Memory.read, ih]

/-- What a write lists: what was listed, or the byte written. -/
theorem Memory.mem_write {m : Memory} {a : Nat} {b : Byte} {x : Host.Cell} (h : x ∈ Memory.write m a b) : x ∈ m ∨ x = (a, b) := by
  induction m with
  | nil => simpa [Memory.write] using h
  | cons y t ih =>
    obtain ⟨y, c⟩ := y
    unfold Memory.write at h
    split at h
    · simp only [List.mem_cons] at h ⊢; tauto
    · split at h
      · simp only [List.mem_cons] at h ⊢; tauto
      · simp only [List.mem_cons] at h ⊢
        rcases h with h | h
        · exact .inl (.inl h)
        · rcases ih h with h | h <;> tauto

/-- A write keeps the canonical form. -/
theorem Memory.wf_write {m : Memory} (a : Nat) (b : Byte) (h : Memory.wf m) : Memory.wf (Memory.write m a b) := by
  induction m with
  | nil => simp [Memory.write, Memory.wf]
  | cons x t ih =>
    obtain ⟨x, c⟩ := x
    obtain ⟨hx, ht⟩ := List.pairwise_cons.1 h
    unfold Memory.write
    split
    · rename_i hlt
      refine List.pairwise_cons.2 ⟨fun y hy => ?_, h⟩
      rcases List.mem_cons.1 hy with rfl | hy
      · exact hlt
      · exact Nat.lt_trans hlt (hx y hy)
    · split
      · rename_i e
        subst e
        exact List.pairwise_cons.2 ⟨hx, ht⟩
      · refine List.pairwise_cons.2 ⟨fun y hy => ?_, ih ht⟩
        rcases Memory.mem_write hy with hy | rfl
        · exact hx y hy
        · simp only; omega

/-- MemWrite leaves every byte outside its region as it was. -/
theorem Memory.read_writeBytes_outside (m : Memory) (a : Nat) (bs : List Byte) {a' : Nat} (h : a' < a ∨ a + bs.length ≤ a') :
    Memory.read (Memory.writeBytes m a bs) a' = Memory.read m a' := by
  induction bs generalizing m a with
  | nil => rfl
  | cons b t ih =>
    simp only [List.length_cons] at h
    rw [Memory.writeBytes, ih _ _ (by omega), Memory.read_write_ne _ _ (by omega)]

/-- MemWrite writes every byte of its region. -/
theorem Memory.read_writeBytes_inside (m : Memory) (a : Nat) (bs : List Byte) {i : Nat} (h : i < bs.length) :
    Memory.read (Memory.writeBytes m a bs) (a + i) = some bs[i] := by
  induction bs generalizing m a i with
  | nil => simp at h
  | cons b t ih =>
    rw [Memory.writeBytes]
    cases i with
    | zero => rw [Memory.read_writeBytes_outside _ _ _ (by omega)]; simp
    | succ i =>
      have := ih (Memory.write m a b) (a + 1) (i := i) (by simpa using h)
      rw [show a + (i + 1) = a + 1 + i by omega, this]
      rfl

/-- MemWrite keeps the canonical form. -/
theorem Memory.wf_writeBytes {m : Memory} (a : Nat) (bs : List Byte) (h : Memory.wf m) : Memory.wf (Memory.writeBytes m a bs) := by
  induction bs generalizing m a with
  | nil => exact h
  | cons b t ih => exact ih _ (Memory.wf_write a b h)

/-- MemWrite lists only what was listed and its own region. -/
theorem Memory.writeBytes_bound {m : Memory} {a n : Nat} {bs : List Byte} (h : ∀ x ∈ m, x.1 < n) (hb : a + bs.length ≤ n) :
    ∀ x ∈ Memory.writeBytes m a bs, x.1 < n := by
  induction bs generalizing m a with
  | nil => exact h
  | cons b t ih =>
    simp only [List.length_cons] at hb
    refine ih (fun x hx => ?_) (by omega)
    rcases Memory.mem_write hx with hx | rfl
    · exact h x hx
    · simp only; omega

/-- A region reads as `bs` iff `bs` has its length and holds its bytes. -/
theorem Memory.readBytes_eq_ok (m : Memory) (a n : Nat) (bs : List Byte) :
    Memory.readBytes m a n = .ok bs ↔ bs.length = n ∧ ∀ (i : Nat) (h : i < bs.length), Memory.read m (a + i) = some bs[i] := by
  induction n generalizing a bs with
  | zero =>
    simp only [Memory.readBytes, Except.ok.injEq]
    constructor
    · rintro rfl; simp
    · rintro ⟨h, -⟩; exact (List.length_eq_zero_iff.1 h).symm
  | succ n ih =>
    rw [Memory.readBytes]
    constructor
    · intro h
      split at h
      · cases h
      · rename_i b hb
        split at h
        · rename_i t ht
          cases h
          obtain ⟨hl, hr⟩ := (ih _ _).1 ht
          refine ⟨by simp [hl], fun i hi => ?_⟩
          cases i with
          | zero => simpa using hb
          | succ i =>
            have := hr i (by simpa using hi)
            rw [show a + (i + 1) = a + 1 + i by omega, this]
            rfl
        · cases h
    · rintro ⟨hl, hr⟩
      cases bs with
      | nil => simp at hl
      | cons b t =>
        have h0 := hr 0 (by simp)
        simp only [Nat.add_zero, List.getElem_cons_zero] at h0
        have ht : Memory.readBytes m (a + 1) n = .ok t := by
          refine (ih _ _).2 ⟨by simpa using hl, fun i hi => ?_⟩
          have := hr (i + 1) (by simpa using hi)
          rw [show a + 1 + i = a + (i + 1) by omega, this]
          rfl
        simp [h0, ht]

theorem Memory.readBytes_length {m : Memory} {a n : Nat} {bs : List Byte} (h : Memory.readBytes m a n = .ok bs) : bs.length = n :=
  ((Memory.readBytes_eq_ok m a n bs).1 h).1

/-- A region that does not read names its first byte that holds no value. -/
theorem Memory.readBytes_eq_error {m : Memory} {a n e : Nat} (h : Memory.readBytes m a n = .error e) :
    Memory.read m e = none ∧ a ≤ e ∧ e < a + n := by
  induction n generalizing a with
  | zero => simp [Memory.readBytes] at h
  | succ n ih =>
    rw [Memory.readBytes] at h
    split at h
    · rename_i hn
      cases h
      exact ⟨hn, by omega, by omega⟩
    · split at h
      · cases h
      · rename_i e' he
        cases h
        obtain ⟨h1, h2, h3⟩ := ih he
        exact ⟨h1, by omega, by omega⟩

/-- Reading a region depends on its bytes only. -/
theorem Memory.readBytes_congr {m m' : Memory} {a n : Nat} (h : ∀ i < n, Memory.read m (a + i) = Memory.read m' (a + i)) :
    Memory.readBytes m a n = Memory.readBytes m' a n := by
  induction n generalizing a with
  | zero => rfl
  | succ n ih =>
    have h0 := h 0 (by omega)
    simp only [Nat.add_zero] at h0
    have ht : Memory.readBytes m (a + 1) n = Memory.readBytes m' (a + 1) n :=
      ih fun i hi => by simpa [show a + 1 + i = a + (i + 1) by omega] using h (i + 1) (by omega)
    rw [Memory.readBytes, Memory.readBytes, h0, ht]

/-- The region just written reads as written. -/
@[simp] theorem Memory.readBytes_writeBytes (m : Memory) (a : Nat) (bs : List Byte) :
    Memory.readBytes (Memory.writeBytes m a bs) a bs.length = .ok bs :=
  (Memory.readBytes_eq_ok ..).2 ⟨rfl, fun _ h => Memory.read_writeBytes_inside m a bs h⟩

end Sys2Proof.Machine
end

