-- ==== Sys2Proof/Laws/State.lean ====
section
/-! SUPPORT. One lemma per field per update of the state, each true by unfolding, so that no later proof unfolds an update. -/

namespace Sys2Proof.Machine

/-! ### STATUS -/

@[simp] theorem Status.accepted_busy (st : Status) : st.accepted.busy = true := rfl
@[simp] theorem Status.accepted_done (st : Status) : st.accepted.done = false := rfl
@[simp] theorem Status.accepted_drop (st : Status) : st.accepted.drop = st.drop := rfl
@[simp] theorem Status.accepted_err (st : Status) : st.accepted.err = .none := rfl
@[simp] theorem Status.completed_busy (e : ErrCode) (st : Status) : (st.completed e).busy = false := rfl
@[simp] theorem Status.completed_done (e : ErrCode) (st : Status) : (st.completed e).done = true := rfl
@[simp] theorem Status.completed_drop (e : ErrCode) (st : Status) : (st.completed e).drop = st.drop := rfl
@[simp] theorem Status.completed_err (e : ErrCode) (st : Status) : (st.completed e).err = e := rfl
@[simp] theorem Status.dropped_busy (st : Status) : st.dropped.busy = st.busy := rfl
@[simp] theorem Status.dropped_done (st : Status) : st.dropped.done = st.done := rfl
@[simp] theorem Status.dropped_drop (st : Status) : st.dropped.drop = true := rfl
@[simp] theorem Status.dropped_err (st : Status) : st.dropped.err = st.err := rfl
@[simp] theorem Status.hostWrite_busy (w : Word) (st : Status) : (st.hostWrite w).busy = st.busy := rfl
@[simp] theorem Status.hostWrite_done (w : Word) (st : Status) : (st.hostWrite w).done = st.done := rfl
@[simp] theorem Status.hostWrite_drop (w : Word) (st : Status) : (st.hostWrite w).drop = (st.drop && !w.getLsbD 2) := rfl
@[simp] theorem Status.hostWrite_err (w : Word) (st : Status) : (st.hostWrite w).err = st.err := rfl

/-! ### `raiseError` (60_exceptions R222) -/

section
variable (e : ErrCode) (s : State)
@[simp] theorem raiseError_cfg : (raiseError e s).cfg = s.cfg := rfl
@[simp] theorem raiseError_lanes : (raiseError e s).lanes = s.lanes := rfl
@[simp] theorem raiseError_buf : (raiseError e s).buf = s.buf := rfl
@[simp] theorem raiseError_strictY : (raiseError e s).strictY = s.strictY := rfl
@[simp] theorem raiseError_status : (raiseError e s).status = s.status.completed e := rfl
@[simp] theorem raiseError_cmd : (raiseError e s).cmd = s.cmd := rfl
@[simp] theorem raiseError_resLen : (raiseError e s).resLen = 0 := rfl
@[simp] theorem raiseError_regs : (raiseError e s).regs = s.regs := rfl
@[simp] theorem raiseError_delay : (raiseError e s).delay = s.delay := rfl
@[simp] theorem raiseError_env : (raiseError e s).env = s.env := rfl
end

/-! ### `finish` (70_reset R261) -/

section
variable (n : Nat) (s : State)
@[simp] theorem finish_cfg : (finish n s).cfg = s.cfg := rfl
@[simp] theorem finish_lanes : (finish n s).lanes = s.lanes := rfl
@[simp] theorem finish_buf : (finish n s).buf = s.buf := rfl
@[simp] theorem finish_strictY : (finish n s).strictY = s.strictY := rfl
@[simp] theorem finish_status : (finish n s).status = s.status.completed .none := rfl
@[simp] theorem finish_cmd : (finish n s).cmd = s.cmd := rfl
@[simp] theorem finish_resLen : (finish n s).resLen = BitVec.ofNat 32 n := rfl
@[simp] theorem finish_regs : (finish n s).regs = s.regs := rfl
@[simp] theorem finish_delay : (finish n s).delay = s.delay := rfl
@[simp] theorem finish_env : (finish n s).env = s.env := rfl
end

/-! ### `accepted` and `accept` (70_reset R260) -/

section
variable (w : Word) (d : Nat) (s : State)
@[simp] theorem accepted_cfg : (accepted w d s).cfg = s.cfg := rfl
@[simp] theorem accepted_lanes : (accepted w d s).lanes = s.lanes := rfl
@[simp] theorem accepted_buf : (accepted w d s).buf = s.buf := rfl
@[simp] theorem accepted_strictY : (accepted w d s).strictY = s.strictY := rfl
@[simp] theorem accepted_status : (accepted w d s).status = s.status.accepted := rfl
@[simp] theorem accepted_cmd : (accepted w d s).cmd = w := rfl
@[simp] theorem accepted_resLen : (accepted w d s).resLen = 0 := rfl
@[simp] theorem accepted_regs : (accepted w d s).regs = s.regs := rfl
@[simp] theorem accepted_delay : (accepted w d s).delay = d := rfl
@[simp] theorem accepted_env : (accepted w d s).env = s.env := rfl

/-- What an acceptance does: the effects of R260, some finite delay, and one delay consumed or drawn. -/
theorem accept_eq_accepted : ∃ d e, accept w s = { accepted w d s with env := e } ∧ e.bus = s.env.bus ∧ e.reads = s.env.reads ∧ e.rng = s.env.rng := by
  unfold accept
  split
  · exact ⟨_, _, rfl, rfl, rfl, rfl⟩
  · exact ⟨_, _, rfl, rfl, rfl, rfl⟩

@[simp] theorem accept_cfg : (accept w s).cfg = s.cfg := by unfold accept; split <;> rfl
@[simp] theorem accept_lanes : (accept w s).lanes = s.lanes := by unfold accept; split <;> rfl
@[simp] theorem accept_buf : (accept w s).buf = s.buf := by unfold accept; split <;> rfl
@[simp] theorem accept_strictY : (accept w s).strictY = s.strictY := by unfold accept; split <;> rfl
@[simp] theorem accept_status : (accept w s).status = s.status.accepted := by unfold accept; split <;> rfl
@[simp] theorem accept_cmd : (accept w s).cmd = w := by unfold accept; split <;> rfl
@[simp] theorem accept_resLen : (accept w s).resLen = 0 := by unfold accept; split <;> rfl
@[simp] theorem accept_regs : (accept w s).regs = s.regs := by unfold accept; split <;> rfl
end

/-! ### The random-byte port (60_exceptions R236) -/

section
variable (n : Nat) (s : State)
@[simp] theorem rngDrawn_cfg : (rngDrawn n s).cfg = s.cfg := rfl
@[simp] theorem rngDrawn_lanes : (rngDrawn n s).lanes = s.lanes := rfl
@[simp] theorem rngDrawn_buf : (rngDrawn n s).buf = s.buf := rfl
@[simp] theorem rngDrawn_strictY : (rngDrawn n s).strictY = s.strictY := rfl
@[simp] theorem rngDrawn_status : (rngDrawn n s).status = s.status := rfl
@[simp] theorem rngDrawn_cmd : (rngDrawn n s).cmd = s.cmd := rfl
@[simp] theorem rngDrawn_resLen : (rngDrawn n s).resLen = s.resLen := rfl
@[simp] theorem rngDrawn_regs : (rngDrawn n s).regs = s.regs := rfl
@[simp] theorem rngDrawn_delay : (rngDrawn n s).delay = s.delay := rfl
@[simp] theorem rngDrawn_env : (rngDrawn n s).env = rngAdvance s.env n := rfl
end

/-- The port answers exactly the bytes it was asked for (R236). -/
@[simp] theorem rngBytes_length (e : Env) (n : Nat) : (rngBytes e n).length = n := by
  simp [rngBytes]; omega

/-! ### Reset (70_reset R250) -/

section
variable (s : State)
@[simp] theorem resetEngine_cfg : (resetEngine s).cfg = s.cfg := rfl
@[simp] theorem resetEngine_lanes : (resetEngine s).lanes = Vector.replicate 25 0 := rfl
@[simp] theorem resetEngine_buf : (resetEngine s).buf = [] := rfl
@[simp] theorem resetEngine_strictY : (resetEngine s).strictY = true := rfl
@[simp] theorem resetEngine_busy : (resetEngine s).status.busy = false := rfl
@[simp] theorem resetEngine_done : (resetEngine s).status.done = false := rfl
@[simp] theorem resetEngine_drop : (resetEngine s).status.drop = false := rfl
@[simp] theorem resetEngine_err : (resetEngine s).status.err = .none := rfl
@[simp] theorem resetEngine_cmd : (resetEngine s).cmd = 0 := rfl
@[simp] theorem resetEngine_resLen : (resetEngine s).resLen = 0 := rfl
@[simp] theorem resetEngine_delay : (resetEngine s).delay = 0 := rfl
@[simp] theorem resetEngine_env : (resetEngine s).env = s.env := rfl
end

/-! ### Host reads and dropped writes -/

section
variable (n : Nat) (off : Offset) (s : State)
@[simp] theorem hostRead_cfg : (hostRead n off s).cfg = s.cfg := rfl
@[simp] theorem hostRead_lanes : (hostRead n off s).lanes = s.lanes := rfl
@[simp] theorem hostRead_buf : (hostRead n off s).buf = s.buf := rfl
@[simp] theorem hostRead_strictY : (hostRead n off s).strictY = s.strictY := rfl
@[simp] theorem hostRead_status : (hostRead n off s).status = s.status := rfl
@[simp] theorem hostRead_cmd : (hostRead n off s).cmd = s.cmd := rfl
@[simp] theorem hostRead_resLen : (hostRead n off s).resLen = s.resLen := rfl
@[simp] theorem hostRead_regs : (hostRead n off s).regs = s.regs := rfl
@[simp] theorem hostRead_delay : (hostRead n off s).delay = s.delay := rfl
@[simp] theorem hostRead_bus : (hostRead n off s).env.bus = s.env.bus := rfl
@[simp] theorem hostRead_reads : (hostRead n off s).env.reads = hostReadValue s n off :: s.env.reads := rfl
@[simp] theorem dropWrite_cfg : (dropWrite s).cfg = s.cfg := rfl
@[simp] theorem dropWrite_lanes : (dropWrite s).lanes = s.lanes := rfl
@[simp] theorem dropWrite_buf : (dropWrite s).buf = s.buf := rfl
@[simp] theorem dropWrite_strictY : (dropWrite s).strictY = s.strictY := rfl
@[simp] theorem dropWrite_status : (dropWrite s).status = s.status.dropped := rfl
@[simp] theorem dropWrite_cmd : (dropWrite s).cmd = s.cmd := rfl
@[simp] theorem dropWrite_resLen : (dropWrite s).resLen = s.resLen := rfl
@[simp] theorem dropWrite_regs : (dropWrite s).regs = s.regs := rfl
@[simp] theorem dropWrite_delay : (dropWrite s).delay = s.delay := rfl
@[simp] theorem dropWrite_env : (dropWrite s).env = s.env := rfl
end

end Sys2Proof.Machine
end

