-- ==== Sys2Proof/Laws/Operands.lean ====
section
/-! SUPPORT. What the shared operations over operands can do, said once each. -/

namespace Sys2Proof.Machine

theorem inRange_iff {c : Config} {a : Word} {n : Nat} : inRange c a n = true ↔ a.toNat + n ≤ c.bufBytes := by
  simp [inRange]

theorem validRate_iff {r : Word} : validRate r = true ↔ r.toNat % 8 = 0 ∧ 8 ≤ r.toNat ∧ r.toNat ≤ 1600 := by
  simp [validRate, and_assoc]

theorem validOut_iff {o : Word} : validOut o = true ↔ o.toNat % 8 = 0 ∧ 8 ≤ o.toNat ∧ o.toNat ≤ 1600 := by
  simp [validOut, and_assoc]

/-- A legal rate is 1 to 200 whole bytes (60_exceptions R224). -/
theorem rateBytes_bounds {s : State} (h : validRate s.regs.rateBits = true) :
    1 ≤ rateBytes s ∧ rateBytes s ≤ 200 ∧ 8 * rateBytes s = s.regs.rateBits.toNat := by
  have := validRate_iff.1 h
  unfold rateBytes
  omega

/-- A legal output is 1 to 200 whole bytes (60_exceptions R224). -/
theorem outBytes_bounds {s : State} (h : validOut s.regs.outBits = true) :
    1 ≤ outBytes s ∧ outBytes s ≤ 200 ∧ 8 * outBytes s = s.regs.outBits.toNat := by
  have := validOut_iff.1 h
  unfold outBytes
  omega

/-- A quotient rounded up is not above what is divided. -/
theorem ceilDiv_le (a : Nat) {b : Nat} (h : 1 ≤ b) : ceilDiv a b ≤ a := by
  unfold ceilDiv
  rw [Nat.div_le_iff_le_mul_add_pred h]
  have := Nat.le_mul_of_pos_left a h
  omega

/-- Reading an input region either goes on with its bytes or stops at its first byte that holds no value. -/
theorem withBytes_cases (s : State) (a : Word) (n : Nat) (k : List Byte → Host.Outcome State Fault Refusal) :
    (∃ bs, Memory.readBytes s.buf a.toNat n = .ok bs ∧ bs.length = n ∧ withBytes s a n k = k bs) ∨
    (∃ e, Memory.read s.buf e = none ∧ a.toNat ≤ e ∧ e < a.toNat + n ∧ withBytes s a n k = .fault (.bufUnwritten e)) := by
  unfold withBytes
  split
  · rename_i bs h
    exact .inl ⟨bs, h, Memory.readBytes_length h, rfl⟩
  · rename_i e h
    obtain ⟨h1, h2, h3⟩ := Memory.readBytes_eq_error h
    exact .inr ⟨e, h1, h2, h3, rfl⟩

theorem withBytes_of_ok {s : State} {a : Word} {n : Nat} {bs : List Byte} (k : List Byte → Host.Outcome State Fault Refusal)
    (h : Memory.readBytes s.buf a.toNat n = .ok bs) : withBytes s a n k = k bs := by
  simp [withBytes, h]

/-- The state after a successful command has written `out` at DST_ADDR (70_reset R261). -/
def delivered (s : State) (n : Nat) (out : List Byte) : State :=
  finish n { s with buf := Memory.writeBytes s.buf s.regs.dstAddr.toNat out }

section
variable (s : State) (n : Nat) (out : List Byte)
@[simp] theorem delivered_cfg : (delivered s n out).cfg = s.cfg := rfl
@[simp] theorem delivered_lanes : (delivered s n out).lanes = s.lanes := rfl
@[simp] theorem delivered_buf : (delivered s n out).buf = Memory.writeBytes s.buf s.regs.dstAddr.toNat out := rfl
@[simp] theorem delivered_strictY : (delivered s n out).strictY = s.strictY := rfl
@[simp] theorem delivered_status : (delivered s n out).status = s.status.completed .none := rfl
@[simp] theorem delivered_cmd : (delivered s n out).cmd = s.cmd := rfl
@[simp] theorem delivered_resLen : (delivered s n out).resLen = BitVec.ofNat 32 n := rfl
@[simp] theorem delivered_regs : (delivered s n out).regs = s.regs := rfl
@[simp] theorem delivered_delay : (delivered s n out).delay = s.delay := rfl
@[simp] theorem delivered_env : (delivered s n out).env = s.env := rfl
end

theorem deliver_of_inRange {s : State} {n : Nat} (out : List Byte) (h : inRange s.cfg s.regs.dstAddr n = true) :
    deliver s n out = .next (delivered s n out) := by
  simp [deliver, h, delivered]

theorem deliver_of_outOfRange {s : State} {n : Nat} (out : List Byte) (h : inRange s.cfg s.regs.dstAddr n = false) :
    deliver s n out = .next (raiseError .bufRange s) := by
  simp [deliver, h]

/-- The end of an output-producing command: BUF_RANGE, or the whole output written. -/
theorem deliver_cases (s : State) (n : Nat) (out : List Byte) :
    (inRange s.cfg s.regs.dstAddr n = false ∧ deliver s n out = .next (raiseError .bufRange s)) ∨
    (inRange s.cfg s.regs.dstAddr n = true ∧ deliver s n out = .next (delivered s n out)) := by
  cases h : inRange s.cfg s.regs.dstAddr n
  · exact .inl ⟨rfl, deliver_of_outOfRange out h⟩
  · exact .inr ⟨rfl, deliver_of_inRange out h⟩

end Sys2Proof.Machine
end

