-- ==== Sys2Proof/Laws/Exec.lean ====
section
/-! SUPPORT. What a command's completion can do, said once: `exec_cases`. Every later proof about all commands cites it. -/

namespace Sys2Proof.Machine

/-- The ways a command that computes for the lane file ends. -/
inductive LaneEnd (s : State) : Host.Outcome State Fault Refusal → Prop where
  | raised (e : ErrCode) (h : e ≠ .none ∧ e ≠ .illegalCmd) : LaneEnd s (.next (raiseError e s))
  | written (L : Lanes) : LaneEnd s (.next (finish 0 { s with lanes := L }))
  | stopped (a : Nat) (h : Memory.read s.buf a = none) (ha : a < s.cfg.bufBytes) : LaneEnd s (.fault (.bufUnwritten a))

/-- The ways a command that computes for BUF ends. The port is untouched, or `d` bytes were drawn from it. -/
inductive BufEnd (s : State) (d : Nat) : Host.Outcome State Fault Refusal → Prop where
  | raised (e : ErrCode) (h : e ≠ .none ∧ e ≠ .illegalCmd) : BufEnd s d (.next (raiseError e s))
  | late : BufEnd s d (.next (raiseError .bufRange (rngDrawn d s)))
  | written (out : List Byte) (h : inRange s.cfg s.regs.dstAddr out.length = true) :
      BufEnd s d (.next (delivered (rngDrawn d s) out.length out))
  | stopped (a : Nat) (h : Memory.read s.buf a = none) (ha : a < s.cfg.bufBytes) : BufEnd s d (.fault (.bufUnwritten a))

/-- Drawing nothing changes nothing. -/
@[simp] theorem rngDrawn_zero (s : State) : rngDrawn 0 s = s := by
  simp [rngDrawn, rngAdvance]

theorem BufEnd.of_deliver {s : State} {d n : Nat} {out : List Byte} (h : out.length = n) :
    BufEnd s d (deliver (rngDrawn d s) n out) := by
  subst h
  rcases deliver_cases (rngDrawn d s) out.length out with ⟨-, h⟩ | ⟨hr, h⟩
  · rw [h]; exact .late
  · rw [h]; exact .written out hr

theorem BufEnd.of_deliver_zero {s : State} {n : Nat} {out : List Byte} (h : out.length = n) : BufEnd s 0 (deliver s n out) := by
  simpa using BufEnd.of_deliver (s := s) (d := 0) h

theorem BufEnd.of_withBytes {s : State} {d n : Nat} {a : Word} {k : List Byte → Host.Outcome State Fault Refusal}
    (hr : inRange s.cfg a n = true) (h : ∀ bs, bs.length = n → BufEnd s d (k bs)) : BufEnd s d (withBytes s a n k) := by
  rcases withBytes_cases s a n k with ⟨bs, -, hl, he⟩ | ⟨e, h1, -, h3, he⟩
  · rw [he]; exact h bs hl
  · rw [he]; exact .stopped e h1 (by have := inRange_iff.1 hr; omega)

theorem LaneEnd.of_withBytes {s : State} {n : Nat} {a : Word} {k : List Byte → Host.Outcome State Fault Refusal}
    (hr : inRange s.cfg a n = true) (h : ∀ bs, bs.length = n → LaneEnd s (k bs)) : LaneEnd s (withBytes s a n k) := by
  rcases withBytes_cases s a n k with ⟨bs, -, hl, he⟩ | ⟨e, h1, -, h3, he⟩
  · rw [he]; exact h bs hl
  · rw [he]; exact .stopped e h1 (by have := inRange_iff.1 hr; omega)

theorem execClear_end (s : State) : LaneEnd s (execClear s) := .written _

theorem execPermute_end (s : State) : LaneEnd s (execPermute s) := .written _

theorem execAbsorb_end (s : State) : LaneEnd s (execAbsorb s) := by
  unfold execAbsorb
  split
  · exact .raised .config (by decide)
  · split
    · exact .raised .config (by decide)
    · split
      · exact .raised .bufRange (by decide)
      · exact .of_withBytes (by simp_all) fun _ _ => .written _

theorem execPad_end (s : State) : BufEnd s 0 (execPad s) := by
  unfold execPad
  split
  · exact .raised .config (by decide)
  · split
    · exact .raised .bufRange (by decide)
    · exact .of_withBytes (by simp_all) fun _ _ => .of_deliver_zero rfl

theorem execSqueeze_end (s : State) : BufEnd s 0 (execSqueeze s) := by
  unfold execSqueeze
  split
  · exact .raised .config (by decide)
  · exact .of_deliver_zero (by simp)

theorem execHash_end (s : State) : BufEnd s 0 (execHash s) := by
  unfold execHash
  split
  · exact .raised .config (by decide)
  · split
    · exact .raised .config (by decide)
    · split
      · exact .raised .bufRange (by decide)
      · exact .of_withBytes (by simp_all) fun _ _ => .of_deliver_zero (by simp [outBytes])

theorem execMgf1_end (s : State) : BufEnd s 0 (execMgf1 s) := by
  unfold execMgf1
  split
  · exact .raised .config (by decide)
  · split
    · exact .raised .config (by decide)
    · rename_i ho
      split
      · exact .raised .config (by decide)
      · split
        · exact .raised .bufRange (by decide)
        · exact .of_withBytes (by simp_all) fun _ _ =>
            .of_deliver_zero (mgf1_length _ _ _ _ _ (outBytes_bounds (by simpa using ho)).1)

theorem execOaepEnc_end (s : State) :
    BufEnd s (outBytes s) (execOaepEnc s) := by
  unfold execOaepEnc
  split
  · exact .raised .config (by decide)
  · split
    · exact .raised .config (by decide)
    · rename_i ho
      have hb := (outBytes_bounds (s := s) (by simpa using ho)).1
      split
      · exact .raised .bufRange (by decide)
      · split
        · exact .raised .bufRange (by decide)
        · refine .of_withBytes (by simp_all) fun m _ => .of_withBytes (by simp_all) fun label _ => ?_
          split
          · exact .raised .msgTooLong (by decide)
          · rename_i hf
            have hf : oaepFits m.length s.regs.k.toNat (outBytes s) = true := by simpa using hf
            have hk : m.length + 2 * outBytes s + 2 ≤ s.regs.k.toNat := by simpa [oaepFits] using hf
            refine .of_deliver (oaepMask_length _ _ _ _ _ hb ?_ (oaepDb_length _ _ ?_ hf) (rngBytes_length _ _))
            · change outBytes s + 1 ≤ _; omega
            · simp [outBytes]

theorem execOaepDec_end (s : State) : BufEnd s 0 (execOaepDec s) := by
  unfold execOaepDec
  split
  · exact .raised .config (by decide)
  · split
    · exact .raised .config (by decide)
    · split
      · exact .raised .config (by decide)
      · split
        · exact .raised .bufRange (by decide)
        · split
          · exact .raised .bufRange (by decide)
          · refine .of_withBytes (by simp_all) fun E _ => .of_withBytes (by simp_all) fun label _ => ?_
            split
            · rename_i e he
              refine .raised e ?_
              unfold oaepDecode at he
              simp only at he
              repeat' split at he
              all_goals cases he
              all_goals decide
            · exact .of_deliver_zero rfl

/-- The commands that write the lane file (10_state R51). -/
def writesLanes : Instr → Bool
  | .clear => true
  | .permute => true
  | .absorb => true
  | .pad => false
  | .squeeze => false
  | .hash => false
  | .mgf1 => false
  | .oaepEnc => false
  | .oaepDec => false

/-- How many bytes a command may draw from the random-byte port (60_exceptions R236). -/
def maxDraw (i : Instr) (s : State) : Nat := if i = .oaepEnc then outBytes s else 0

/-- What a completion can do: a lane command raises an error, writes the lane file or stops at an unwritten byte; any other
command raises an error, writes one region of BUF at DST_ADDR or stops at an unwritten byte. -/
theorem exec_cases (i : Instr) (s : State) :
    (writesLanes i = true ∧ LaneEnd s (exec i s)) ∨ (writesLanes i = false ∧ BufEnd s (maxDraw i s) (exec i s)) := by
  cases i
  · exact .inl ⟨rfl, execClear_end s⟩
  · exact .inl ⟨rfl, execPermute_end s⟩
  · exact .inr ⟨rfl, execPad_end s⟩
  · exact .inl ⟨rfl, execAbsorb_end s⟩
  · exact .inr ⟨rfl, execSqueeze_end s⟩
  · exact .inr ⟨rfl, execHash_end s⟩
  · exact .inr ⟨rfl, execMgf1_end s⟩
  · exact .inr ⟨rfl, execOaepEnc_end s⟩
  · exact .inr ⟨rfl, execOaepDec_end s⟩

end Sys2Proof.Machine
end

