-- ==== Sys2Proof/Laws/Permutation.lean ====
section
/-! SUPPORT. Lanes by coordinates (00_scope R13): reading what `ofXY` builds, and equality lane by lane. -/

namespace Sys2Proof.Machine

/-- Lane (x, y) of a state built from `f`. -/
@[simp] theorem laneAt_ofXY (f : Nat → Nat → Lane) (x y : Nat) : laneAt (ofXY f) x y = f (x % 5) (y % 5) := by
  have hx : x % 5 < 5 := Nat.mod_lt _ (by decide)
  simp only [laneAt, ofXY, Vector.getElem_ofFn]
  congr 1 <;> omega

/-- Lane j of a state built from `f`. -/
theorem getElem_ofXY (f : Nat → Nat → Lane) (j : Nat) (h : j < 25) : (ofXY f)[j] = f (j % 5) (j / 5) := by
  simp [ofXY]

/-- Lane j is the lane at (j mod 5, j div 5) (R13). -/
theorem getElem_eq_laneAt (A : Lanes) (j : Nat) (h : j < 25) : A[j] = laneAt A (j % 5) (j / 5) := by
  unfold laneAt
  congr 1
  omega

/-- Two states are equal when their 25 lanes are. -/
theorem lanes_ext {A B : Lanes} (h : ∀ x < 5, ∀ y < 5, laneAt A x y = laneAt B x y) : A = B := by
  apply Vector.ext
  intro j hj
  rw [getElem_eq_laneAt A j hj, getElem_eq_laneAt B j hj]
  exact h _ (Nat.mod_lt _ (by decide)) _ (by omega)

end Sys2Proof.Machine
end

