-- ==== Sys2Proof/Laws/FastPermutation.lean ====
section
/-! SUPPORT. The permutation on 25 named lanes, a form that the kernel evaluates quickly, proved equal to the clear one of
Machine/Permutation.lean. Tests evaluate P through `keccakP_eq_flat`. -/

namespace Sys2Proof.Machine

/-- The 25 lanes, each under its own name. -/
structure Flat where
  (a0 a1 a2 a3 a4 : Lane)
  (a5 a6 a7 a8 a9 : Lane)
  (a10 a11 a12 a13 a14 : Lane)
  (a15 a16 a17 a18 a19 : Lane)
  (a20 a21 a22 a23 a24 : Lane)
deriving DecidableEq

/-- The lanes by name. -/
def toFlat (A : Lanes) : Flat :=
  ⟨A[0], A[1], A[2], A[3], A[4], A[5], A[6], A[7], A[8], A[9], A[10], A[11], A[12], A[13], A[14], A[15], A[16], A[17],
   A[18], A[19], A[20], A[21], A[22], A[23], A[24]⟩

/-- The lanes by number. -/
def ofFlat : Flat → Lanes
  | ⟨a0, a1, a2, a3, a4, a5, a6, a7, a8, a9, a10, a11, a12, a13, a14, a15, a16, a17, a18, a19, a20, a21, a22, a23,
      a24⟩ =>
    #v[a0, a1, a2, a3, a4, a5, a6, a7, a8, a9, a10, a11, a12, a13, a14, a15, a16, a17, a18, a19, a20, a21, a22, a23, a24]

/-- The lanes with the five column words beside them. -/
structure FlatCols where
  flat : Flat
  d0 : Lane
  d1 : Lane
  d2 : Lane
  d3 : Lane
  d4 : Lane

/-- The column parities of theta. -/
def flatParity : Flat → FlatCols
  | ⟨a0, a1, a2, a3, a4, a5, a6, a7, a8, a9, a10, a11, a12, a13, a14, a15, a16, a17, a18, a19, a20, a21, a22, a23,
      a24⟩ =>
    ⟨⟨a0, a1, a2, a3, a4, a5, a6, a7, a8, a9, a10, a11, a12, a13, a14, a15, a16, a17, a18, a19, a20, a21, a22, a23, a24⟩,
     a0 ^^^ a5 ^^^ a10 ^^^ a15 ^^^ a20,
     a1 ^^^ a6 ^^^ a11 ^^^ a16 ^^^ a21,
     a2 ^^^ a7 ^^^ a12 ^^^ a17 ^^^ a22,
     a3 ^^^ a8 ^^^ a13 ^^^ a18 ^^^ a23,
     a4 ^^^ a9 ^^^ a14 ^^^ a19 ^^^ a24⟩

/-- The column words `D` of theta from its parities. -/
def flatSpread (rot1 : Bool) : FlatCols → FlatCols
  | ⟨f, c0, c1, c2, c3, c4⟩ =>
    if rot1 then
      ⟨f, c4 ^^^ rol64 c1 1, c0 ^^^ rol64 c2 1, c1 ^^^ rol64 c3 1, c2 ^^^ rol64 c4 1, c3 ^^^ rol64 c0 1⟩
    else
      ⟨f, c4 ^^^ c1, c0 ^^^ c2, c1 ^^^ c3, c2 ^^^ c4, c3 ^^^ c0⟩

/-- Every lane XORed with its column word. -/
def flatMix : FlatCols → Flat
  | ⟨⟨a0, a1, a2, a3, a4, a5, a6, a7, a8, a9, a10, a11, a12, a13, a14, a15, a16, a17, a18, a19, a20, a21, a22, a23,
      a24⟩, d0, d1, d2, d3, d4⟩ =>
    ⟨a0 ^^^ d0, a1 ^^^ d1, a2 ^^^ d2, a3 ^^^ d3, a4 ^^^ d4, a5 ^^^ d0, a6 ^^^ d1, a7 ^^^ d2, a8 ^^^ d3, a9 ^^^ d4, a10
     ^^^ d0, a11 ^^^ d1, a12 ^^^ d2, a13 ^^^ d3, a14 ^^^ d4, a15 ^^^ d0, a16 ^^^ d1, a17 ^^^ d2, a18 ^^^ d3, a19
     ^^^ d4, a20 ^^^ d0, a21 ^^^ d1, a22 ^^^ d2, a23 ^^^ d3, a24 ^^^ d4⟩

/-- rho. -/
def flatRho (t : RhoTable) : Flat → Flat
  | ⟨a0, a1, a2, a3, a4, a5, a6, a7, a8, a9, a10, a11, a12, a13, a14, a15, a16, a17, a18, a19, a20, a21, a22, a23,
      a24⟩ =>
    match t with
    | .docXY =>
      ⟨rol64 a0 0, rol64 a1 36, rol64 a2 3, rol64 a3 41, rol64 a4 18, rol64 a5 1, rol64 a6 44, rol64 a7 10, rol64 a8
       45, rol64 a9 2, rol64 a10 62, rol64 a11 6, rol64 a12 43, rol64 a13 15, rol64 a14 61, rol64 a15 28, rol64
       a16 55, rol64 a17 25, rol64 a18 21, rol64 a19 56, rol64 a20 27, rol64 a21 20, rol64 a22 39, rol64 a23 8,
       rol64 a24 14⟩
    | .transposed =>
      ⟨rol64 a0 0, rol64 a1 1, rol64 a2 62, rol64 a3 28, rol64 a4 27, rol64 a5 36, rol64 a6 44, rol64 a7 6, rol64 a8
       55, rol64 a9 20, rol64 a10 3, rol64 a11 10, rol64 a12 43, rol64 a13 25, rol64 a14 39, rol64 a15 41, rol64
       a16 45, rol64 a17 15, rol64 a18 21, rol64 a19 8, rol64 a20 18, rol64 a21 2, rol64 a22 61, rol64 a23 56,
       rol64 a24 14⟩

/-- pi. -/
def flatPi : Flat → Flat
  | ⟨a0, a1, a2, a3, a4, a5, a6, a7, a8, a9, a10, a11, a12, a13, a14, a15, a16, a17, a18, a19, a20, a21, a22, a23,
      a24⟩ =>
    ⟨a0, a6, a12, a18, a24, a3, a9, a10, a16, a22, a1, a7, a13, a19, a20, a4, a5, a11, a17, a23, a2, a8, a14, a15, a21⟩

/-- chi. -/
def flatChi : Flat → Flat
  | ⟨a0, a1, a2, a3, a4, a5, a6, a7, a8, a9, a10, a11, a12, a13, a14, a15, a16, a17, a18, a19, a20, a21, a22, a23,
      a24⟩ =>
    ⟨a0 ^^^ (~~~a1 &&& a2), a1 ^^^ (~~~a2 &&& a3), a2 ^^^ (~~~a3 &&& a4), a3 ^^^ (~~~a4 &&& a0), a4 ^^^ (~~~a0 &&&
     a1), a5 ^^^ (~~~a6 &&& a7), a6 ^^^ (~~~a7 &&& a8), a7 ^^^ (~~~a8 &&& a9), a8 ^^^ (~~~a9 &&& a5), a9 ^^^
     (~~~a5 &&& a6), a10 ^^^ (~~~a11 &&& a12), a11 ^^^ (~~~a12 &&& a13), a12 ^^^ (~~~a13 &&& a14), a13 ^^^
     (~~~a14 &&& a10), a14 ^^^ (~~~a10 &&& a11), a15 ^^^ (~~~a16 &&& a17), a16 ^^^ (~~~a17 &&& a18), a17 ^^^
     (~~~a18 &&& a19), a18 ^^^ (~~~a19 &&& a15), a19 ^^^ (~~~a15 &&& a16), a20 ^^^ (~~~a21 &&& a22), a21 ^^^
     (~~~a22 &&& a23), a22 ^^^ (~~~a23 &&& a24), a23 ^^^ (~~~a24 &&& a20), a24 ^^^ (~~~a20 &&& a21)⟩

/-- iota with the round constant `rc`. -/
def flatIota (rc : Lane) : Flat → Flat
  | ⟨a0, a1, a2, a3, a4, a5, a6, a7, a8, a9, a10, a11, a12, a13, a14, a15, a16, a17, a18, a19, a20, a21, a22, a23,
      a24⟩ =>
    ⟨a0 ^^^ rc, a1, a2, a3, a4, a5, a6, a7, a8, a9, a10, a11, a12, a13, a14, a15, a16, a17, a18, a19, a20, a21, a22,
     a23, a24⟩

/-- One round. -/
def flatRound (c : Config) (f : Flat) (r : Fin 24) : Flat :=
  flatIota c.rcTable[r] (flatChi (flatPi (flatRho c.rhoTable (flatMix (flatSpread c.thetaRot1 (flatParity f))))))

/-- The permutation. -/
def keccakFlat (c : Config) (A : Lanes) : Lanes := ofFlat ((List.finRange 24).foldl (flatRound c) (toFlat A))

theorem ofFlat_toFlat (A : Lanes) : ofFlat (toFlat A) = A := by
  apply Vector.ext
  intro j hj
  simp only [ofFlat, toFlat]
  interval_cases j <;> rfl

theorem toFlat_theta (c : Config) (A : Lanes) :
    toFlat (theta c A) = flatMix (flatSpread c.thetaRot1 (flatParity (toFlat A))) := by
  cases h : c.thetaRot1 <;>
    simp [toFlat, theta, ofXY, thetaD, thetaC, thetaE, laneAt, flatMix, flatSpread, flatParity, h]

theorem toFlat_rho (c : Config) (A : Lanes) : toFlat (rho c A) = flatRho c.rhoTable (toFlat A) := by
  cases h : c.rhoTable <;> simp [toFlat, rho, ofXY, laneAt, rot, rotEntry, rotTable, flatRho, h]

theorem toFlat_piStep (A : Lanes) : toFlat (piStep A) = flatPi (toFlat A) := by
  simp [toFlat, piStep, ofXY, laneAt, flatPi]

theorem toFlat_chi (A : Lanes) : toFlat (chi A) = flatChi (toFlat A) := by
  simp [toFlat, chi, ofXY, laneAt, flatChi]

theorem toFlat_iota (c : Config) (r : Fin 24) (A : Lanes) : toFlat (iota c r A) = flatIota c.rcTable[r] (toFlat A) := by
  simp [toFlat, iota, flatIota]

theorem toFlat_round (c : Config) (A : Lanes) (r : Fin 24) : toFlat (keccakRound c A r) = flatRound c (toFlat A) r := by
  rw [keccakRound, toFlat_iota, toFlat_chi, toFlat_piStep, toFlat_rho, toFlat_theta, flatRound]

theorem toFlat_foldl (c : Config) (l : List (Fin 24)) (A : Lanes) :
    toFlat (l.foldl (keccakRound c) A) = l.foldl (flatRound c) (toFlat A) := by
  induction l generalizing A with
  | nil => rfl
  | cons r l ih => rw [List.foldl_cons, List.foldl_cons, ih, toFlat_round]

/-- The quick form is the permutation of R119. -/
theorem keccakP_eq_flat (c : Config) : keccakP c = keccakFlat c := by
  funext A
  rw [keccakFlat, ← toFlat_foldl, ofFlat_toFlat, keccakP]

end Sys2Proof.Machine
end

