-- ==== Sys2Proof/Laws/Host.lean ====
section
/-! SUPPORT. What the host's side can do, said once: the register map, the ends of a host write, the order of delivery, one
outside step. -/

namespace Sys2Proof.Machine

/-- Every named register stands at its own offset (10_state R32). -/
@[simp] theorem regLocAt_offset (r : Reg) : regLocAt r.offset = .named r := by
  cases r <;> decide

theorem Reg.offset_lt (r : Reg) : r.offset < 0x48 := by
  cases r <;> decide

theorem Reg.offset_aligned (r : Reg) : r.offset % 4 = 0 := by
  cases r <;> decide

/-- The offsets of the low halves (10_state R21). -/
theorem regLocAt_laneLo (j : Fin 25) : regLocAt (0x100 + 8 * j.val) = .laneLo j := by
  revert j; decide

/-- The offsets of the high halves (10_state R21). -/
theorem regLocAt_laneHi (j : Fin 25) : regLocAt (0x104 + 8 * j.val) = .laneHi j := by
  revert j; decide

/-- A named register is found only at its own offset. -/
theorem regLocAt_named {o : Nat} {r : Reg} (h : regLocAt o = .named r) : o = r.offset := by
  unfold regLocAt at h
  split at h
  · split at h <;> cases h
  · split at h
    · rename_i hr
      cases h
      exact (by simpa using List.find?_some hr : r.offset = o).symm
    · cases h

/-- Where nothing is named and no lane half stands, the word is reserved (10_state R46). -/
theorem regLocAt_reserved {o : Nat} (h1 : ¬(0x100 ≤ o ∧ o < 0x1C8)) (h2 : ∀ r : Reg, r.offset ≠ o) : regLocAt o = .reserved := by
  unfold regLocAt
  rw [dif_neg h1]
  split
  · rename_i r hr
    exact absurd (by simpa using List.find?_some hr) (h2 r)
  · rfl

/-- The ways a host write ends. -/
inductive WriteEnd (s : State) : State → Prop where
  | ignored : WriteEnd s s
  | dropped (h : s.status.busy = true) : WriteEnd s (dropWrite s)
  | bytes (h : s.status.busy = false) (a : Nat) (bs : List Byte) (hb : a + bs.length ≤ s.cfg.bufBytes) :
      WriteEnd s { s with buf := Memory.writeBytes s.buf a bs }
  | status (v : Word) : WriteEnd s { s with status := s.status.hostWrite v }
  | word (h : s.status.busy = false) (l : RegLoc) (v : Word) : WriteEnd s (writeRegLoc l v s)

@[simp] theorem leBytes_length (n : Nat) (v : Word) : (leBytes n v).length = n := by
  simp [leBytes]

/-- What a host write can do: nothing, set DROP while busy, write bytes of BUF, write STATUS, or write a word while idle. -/
theorem hostWrite_cases (n : Nat) (off : Offset) (v : Word) (s : State) : WriteEnd s (hostWrite n off v s) := by
  unfold hostWrite
  split
  · exact .ignored
  · rename_i ha
    have ha : admitted s.cfg n off = true := by simpa using ha
    split
    · rename_i hw
      split
      · rename_i hb; exact .dropped hb
      · rename_i hb
        refine .bytes (by simpa using hb) _ _ ?_
        simp only [admitted, hw, if_true, bufAdmitted, Bool.and_eq_true, decide_eq_true_eq] at ha
        simpa using ha.2
    · split
      · rename_i hb
        exact .dropped (by simp only [Bool.and_eq_true] at hb; exact hb.1)
      · rename_i hb
        cases hl : s.status.busy
        · exact .word hl _ _
        · have hs : regLocAt off.toNat = .named .status := by simpa [hl] using hb
          rw [hs]
          exact .status v

/-- A host read changes only what the host has seen and the counter of free values (20_memory R69). -/
theorem hostRead_eq (n : Nat) (off : Offset) (s : State) : ∃ e, hostRead n off s = { s with env := e } ∧ e.bus = s.env.bus ∧
    e.rng = s.env.rng ∧ e.delays = s.env.delays ∧ e.reads = hostReadValue s n off :: s.env.reads :=
  ⟨_, rfl, rfl, rfl, rfl, rfl⟩

/-- The ways one event at the boundary ends. -/
inductive EventEnd (s : State) : State → Prop where
  | wrote (t : State) (h : WriteEnd s t) : EventEnd s t
  | read (n : Nat) (off : Offset) : EventEnd s (hostRead n off s)
  | reset : EventEnd s (resetEngine s)

theorem busEvent_cases (e : BusEvent) (s : State) : EventEnd s (busEvent e s) := by
  cases e
  · exact .wrote _ (hostWrite_cases ..)
  · exact .wrote _ (hostWrite_cases ..)
  · exact .wrote _ (hostWrite_cases ..)
  · exact .read ..
  · exact .read ..
  · exact .read ..
  · exact .read ..
  · exact .reset

/-- Only the reset event resets. -/
theorem busEvent_cases_of_ne_reset {e : BusEvent} (s : State) (h : e ≠ .reset) :
    (WriteEnd s (busEvent e s)) ∨ ∃ n off, busEvent e s = hostRead n off s := by
  cases e
  · exact .inl (hostWrite_cases ..)
  · exact .inl (hostWrite_cases ..)
  · exact .inl (hostWrite_cases ..)
  · exact .inr ⟨_, _, rfl⟩
  · exact .inr ⟨_, _, rfl⟩
  · exact .inr ⟨_, _, rfl⟩
  · exact .inr ⟨_, _, rfl⟩
  · exact absurd rfl h

/-! ### Delivery of the outstanding events -/

@[simp] theorem takeEvent_cfg (e : BusEvent) (s : State) : (takeEvent e s).cfg = s.cfg := rfl
@[simp] theorem takeEvent_lanes (e : BusEvent) (s : State) : (takeEvent e s).lanes = s.lanes := rfl
@[simp] theorem takeEvent_buf (e : BusEvent) (s : State) : (takeEvent e s).buf = s.buf := rfl
@[simp] theorem takeEvent_strictY (e : BusEvent) (s : State) : (takeEvent e s).strictY = s.strictY := rfl
@[simp] theorem takeEvent_status (e : BusEvent) (s : State) : (takeEvent e s).status = s.status := rfl
@[simp] theorem takeEvent_cmd (e : BusEvent) (s : State) : (takeEvent e s).cmd = s.cmd := rfl
@[simp] theorem takeEvent_resLen (e : BusEvent) (s : State) : (takeEvent e s).resLen = s.resLen := rfl
@[simp] theorem takeEvent_regs (e : BusEvent) (s : State) : (takeEvent e s).regs = s.regs := rfl
@[simp] theorem takeEvent_delay (e : BusEvent) (s : State) : (takeEvent e s).delay = s.delay := rfl
@[simp] theorem takeEvent_bus (e : BusEvent) (s : State) : (takeEvent e s).env.bus = busRest e s := rfl
@[simp] theorem takeEvent_reads (e : BusEvent) (s : State) : (takeEvent e s).env.reads = s.env.reads := rfl
@[simp] theorem takeEvent_delays (e : BusEvent) (s : State) : (takeEvent e s).env.delays = s.env.delays := rfl
@[simp] theorem takeEvent_rng (e : BusEvent) (s : State) : (takeEvent e s).env.rng = s.env.rng := rfl
@[simp] theorem takeEvent_draws (e : BusEvent) (s : State) : (takeEvent e s).env.draws = s.env.draws + deliveryDraws s.cfg := rfl

/-- Which event comes next does not depend on the delay. -/
@[simp] theorem nextEvent_delay (s : State) (d : Nat) : nextEvent { s with delay := d } = nextEvent s := rfl

/-- Some outstanding event is the next one, unless none is outstanding. -/
theorem deliveryIndex_lt {s : State} (h : s.env.bus ≠ []) : deliveryIndex s < s.env.bus.length := by
  have := List.length_pos_iff.2 h
  unfold deliveryIndex
  split
  · exact this
  · exact Nat.mod_lt _ this

theorem nextEvent_eq_none {s : State} : nextEvent s = none ↔ s.env.bus = [] := by
  refine ⟨fun h => ?_, fun h => by simp [nextEvent, h]⟩
  by_contra hb
  exact absurd (deliveryIndex_lt hb) (by simpa [nextEvent] using h)

theorem nextEvent_mem {s : State} {e : BusEvent} (h : nextEvent s = some e) : e ∈ s.env.bus := List.mem_of_getElem? h

/-- Under IN_ORDER the events are performed in program order (20_memory R72(a)). -/
theorem nextEvent_inOrder {s : State} (h : s.cfg.hostOrdering = .inOrder) : nextEvent s = s.env.bus.head? := by
  simp [nextEvent, deliveryIndex, h, List.head?_eq_getElem?]

/-- No step adds an event. -/
theorem mem_of_mem_busRest {e x : BusEvent} {s : State} (h : x ∈ busRest e s) : x ∈ s.env.bus := by
  unfold busRest at h
  split at h
  · exact h
  · exact List.mem_of_mem_eraseIdx h

/-- Every event but WAIT is taken off the list. -/
theorem busRest_of_ne_wait {e : BusEvent} {s : State} (h : e ≠ .wait) : busRest e s = s.env.bus.eraseIdx (deliveryIndex s) := by
  simp [busRest, h]

/-- With no event outstanding only the delay runs down. -/
theorem hostStep_none {s : State} (h : nextEvent s = none) : hostStep s = { s with delay := s.delay - 1 } := by
  simp [hostStep, outsideStep, h]

/-- The state in which the next event is performed: the delay lowered, the event taken. -/
def eventState (e : BusEvent) (s : State) : State := takeEvent e { s with delay := s.delay - 1 }

theorem hostStep_some {s : State} {e : BusEvent} (h : nextEvent s = some e) : hostStep s = busEvent e (eventState e s) := by
  simp [hostStep, outsideStep, h, eventState]

/-- A step of the world outside while BUSY = 1, no reset among it: only STATUS.DROP, the delay and what stands around the engine
change (70_reset R262). -/
theorem hostStep_busy {s : State} (hb : s.status.busy = true) (hr : nextEvent s ≠ some .reset) :
    ∃ st e, hostStep s = { s with status := st, delay := s.delay - 1, env := e } ∧ st.busy = true ∧ st.done = s.status.done ∧
      st.err = s.status.err ∧ e.rng = s.env.rng ∧ e.delays = s.env.delays ∧ ∀ x ∈ e.bus, x ∈ s.env.bus := by
  cases hev : nextEvent s with
  | none =>
    rw [hostStep_none hev]
    exact ⟨s.status, s.env, rfl, hb, rfl, rfl, rfl, rfl, fun _ h => h⟩
  | some e =>
    rw [hostStep_some hev]
    have hne : e ≠ .reset := by rintro rfl; exact hr hev
    have hre : ∀ x ∈ busRest e { s with delay := s.delay - 1 }, x ∈ s.env.bus := fun _ h => mem_of_mem_busRest h
    rcases busEvent_cases_of_ne_reset (eventState e s) hne with hw | ⟨n, off, hw⟩
    · generalize busEvent e _ = v at hw ⊢
      rcases hw with _ | hb' | ⟨hb', a, bs, hl⟩ | v | ⟨hb', l, v⟩
      · exact ⟨s.status, _, rfl, hb, rfl, rfl, rfl, rfl, hre⟩
      · exact ⟨s.status.dropped, _, rfl, hb, rfl, rfl, rfl, rfl, hre⟩
      · simp [eventState, hb] at hb'
      · exact ⟨s.status.hostWrite v, _, rfl, hb, rfl, rfl, rfl, rfl, hre⟩
      · simp [eventState, hb] at hb'
    · rw [hw]
      exact ⟨s.status, _, rfl, hb, rfl, rfl, rfl, rfl, hre⟩

/-- Every aperture offset has its host address, and only the 0x20000 addresses from BASE on have an offset (20_memory R60). -/
theorem apertureOffset_hostAddress (c : Config) (off : Offset) : apertureOffset c (hostAddress c off) = some off := by
  have := off.isLt
  rw [apertureOffset, if_pos (by unfold hostAddress; omega)]
  simp [hostAddress]

theorem apertureOffset_eq_none {c : Config} {a : Nat} : apertureOffset c a = none ↔ a < c.base ∨ c.base + 0x20000 ≤ a := by
  unfold apertureOffset
  split <;> simp <;> omega

/-- A 32-bit access at a named register's offset is admitted (20_memory R61). -/
theorem admitted_offset (c : Config) (r : Reg) : admitted c 4 (BitVec.ofNat 17 r.offset) = true := by
  cases r <;> rfl

theorem inBufWindow_offset (r : Reg) : inBufWindow (BitVec.ofNat 17 r.offset) = false := by
  cases r <;> rfl

theorem regLocAt_toNat_offset (r : Reg) : regLocAt (BitVec.ofNat 17 r.offset).toNat = .named r := by
  cases r <;> decide

/-- A 32-bit read at a named register's offset answers the register (10_state R32). -/
theorem hostReadValue_offset (s : State) (r : Reg) : hostReadValue s 4 (BitVec.ofNat 17 r.offset) = readReg s r := by
  simp only [hostReadValue, admitted_offset, inBufWindow_offset, regLocAt_toNat_offset, readRegLoc]
  rfl

/-- A 32-bit write at a named register's offset while BUSY = 0 (10_state R32). -/
theorem hostWrite_offset {s : State} (r : Reg) (v : Word) (h : s.status.busy = false) :
    hostWrite 4 (BitVec.ofNat 17 r.offset) v s = writeReg r v s := by
  simp only [hostWrite, admitted_offset, inBufWindow_offset, regLocAt_toNat_offset, writeRegLoc, h]
  rfl

theorem admitted_laneLo (c : Config) (j : Fin 25) : admitted c 4 (BitVec.ofNat 17 (0x100 + 8 * j.val)) = true := by
  have : inBufWindow (BitVec.ofNat 17 (0x100 + 8 * j.val)) = false ∧
      regAdmitted 4 (BitVec.ofNat 17 (0x100 + 8 * j.val)) = true := by revert j; decide
  simp [admitted, this]

theorem admitted_laneHi (c : Config) (j : Fin 25) : admitted c 4 (BitVec.ofNat 17 (0x104 + 8 * j.val)) = true := by
  have : inBufWindow (BitVec.ofNat 17 (0x104 + 8 * j.val)) = false ∧
      regAdmitted 4 (BitVec.ofNat 17 (0x104 + 8 * j.val)) = true := by revert j; decide
  simp [admitted, this]

end Sys2Proof.Machine
end

