-- ==== Sys2Proof/Laws/PerInstr.lean ====
section
/-! SUPPORT. What holds of each command as syntax (30_encoding R90, R91, R96), one lemma per constructor. -/

/-- The command is well formed, its word is its opcode under RSV = 0, and the decoder reads it back. -/
def Sys2Proof.Laws.Encoding.Statement (i : Sys2Proof.Instr) : Prop :=
  i.wellFormed = true ∧ Sys2Proof.rsvField (Sys2Proof.encode i) = 0 ∧
  Sys2Proof.opcField (Sys2Proof.encode i) = Sys2Proof.opcode i ∧
  Sys2Proof.commandWordWellFormed (Sys2Proof.encode i) = true ∧
  Sys2Proof.decode (Sys2Proof.encode i) = .ok i ∧ Sys2Proof.decodeTableWord 32 (Sys2Proof.encode i).toNat = some i

theorem Sys2Proof.Laws.Encoding.clear : Sys2Proof.Laws.Encoding.Statement .clear := by
  unfold Sys2Proof.Laws.Encoding.Statement
  decide

theorem Sys2Proof.Laws.Encoding.permute : Sys2Proof.Laws.Encoding.Statement .permute := by
  unfold Sys2Proof.Laws.Encoding.Statement
  decide

theorem Sys2Proof.Laws.Encoding.pad : Sys2Proof.Laws.Encoding.Statement .pad := by
  unfold Sys2Proof.Laws.Encoding.Statement
  decide

theorem Sys2Proof.Laws.Encoding.absorb : Sys2Proof.Laws.Encoding.Statement .absorb := by
  unfold Sys2Proof.Laws.Encoding.Statement
  decide

theorem Sys2Proof.Laws.Encoding.squeeze : Sys2Proof.Laws.Encoding.Statement .squeeze := by
  unfold Sys2Proof.Laws.Encoding.Statement
  decide

theorem Sys2Proof.Laws.Encoding.hash : Sys2Proof.Laws.Encoding.Statement .hash := by
  unfold Sys2Proof.Laws.Encoding.Statement
  decide

theorem Sys2Proof.Laws.Encoding.mgf1 : Sys2Proof.Laws.Encoding.Statement .mgf1 := by
  unfold Sys2Proof.Laws.Encoding.Statement
  decide

theorem Sys2Proof.Laws.Encoding.oaepEnc : Sys2Proof.Laws.Encoding.Statement .oaepEnc := by
  unfold Sys2Proof.Laws.Encoding.Statement
  decide

theorem Sys2Proof.Laws.Encoding.oaepDec : Sys2Proof.Laws.Encoding.Statement .oaepDec := by
  unfold Sys2Proof.Laws.Encoding.Statement
  decide
end

