-- ==== Sys2Proof/Tests/Slice0.lean ====
section
/-! SUPPORT. The model's own tests. Expected values are those of 95_test_vectors (T..., P...) or worked by hand from the rule
named. Then one witness for the hypotheses of each statement. -/

namespace Sys2Proof.Machine.Tests

open Sys2Proof Sys2Proof.Machine

/-! ### Helpers -/

/-- The outcome is a next state that passes `p`. -/
def nextIs (o : Host.Outcome State Fault Refusal) (p : State → Bool) : Bool :=
  match o with
  | .next t => p t
  | .fault _ => false
  | .refused _ => false

theorem exists_next {o : Host.Outcome State Fault Refusal} {p : State → Bool} (h : nextIs o p = true) :
    ∃ t, o = .next t ∧ p t = true := by
  cases o with
  | next t => exact ⟨t, rfl, h⟩
  | fault f => cases h
  | refused r => cases h

/-- The bytes of BUF that a test looks at. -/
def bytesAt (t : State) (a n : Nat) : List (Option Byte) := (List.range n).map fun i => Memory.read t.buf (a + i)

/-- ERR, RES_LEN and `n` bytes of BUF from `a` on. -/
def endsWith (e : ErrCode) (n a : Nat) (bs : List Byte) (t : State) : Bool :=
  t.status == { busy := false, done := true, drop := false, err := e } && t.resLen == BitVec.ofNat 32 n &&
    bytesAt t a bs.length == bs.map some

/-- A state with these RATE_BITS, OUT_BITS, K, (SRC), (AUX), DST_ADDR, DST_LEN, and `bs` at offset 0 of BUF. -/
def st (rate out k sa sl aa al da dl : Word) (bs : List Byte) : State :=
  { State.reset with
    regs := { rateBits := rate, outBits := out, k := k, srcAddr := sa, srcLen := sl, auxAddr := aa, auxLen := al, dstAddr := da,
              dstLen := dl }
    buf := Memory.writeBytes [] 0 bs }

/-- The bytes from, ..., from + n - 1. -/
def counting (n : Nat) : List Byte := (List.range n).map (BitVec.ofNat 8)

/-- A state that awaits the outside: a command `w` pending for `d` more steps. -/
def pending (w : Word) (d : Nat) (bus : List BusEvent) : State :=
  { accepted w d State.reset with env := { State.reset.env with bus := bus } }

/-- An idle state with these bus events to come. -/
def idle (bus : List BusEvent) : State := { State.reset with env := { State.reset.env with bus := bus } }

/-- Default parameters but for the size of BUF. -/
def smallCfg (n : Nat) : Config := { defaultConfig with bufBytes := n }

/-- The block of T25, with K = 72, 1152/256, label "L", message "Hi". -/
def t25Block : List Byte :=
  [0x00, 0x04, 0xac, 0x7f, 0x65, 0x0a, 0x0e, 0x1a, 0xdf, 0x5a, 0xdb, 0x67, 0x0e, 0x9e, 0xcd, 0xdf, 0x25, 0x74, 0x49, 0x21,
   0xb7, 0x21, 0xc2, 0x4d, 0x02, 0x74, 0x0c, 0x43, 0xa3, 0x39, 0x10, 0xad, 0x07, 0x6f, 0xce, 0xf0, 0x8e, 0x43, 0xb3, 0xba,
   0x79, 0x71, 0x91, 0xee, 0x42, 0xa6, 0x42, 0x50, 0x3d, 0xc2, 0xe5, 0xd1, 0x9c, 0xf7, 0xcf, 0xcc, 0x6d, 0xf1, 0x33, 0x84,
   0x7a, 0x62, 0x0f, 0xf5, 0xdb, 0x8a, 0xff, 0xfe, 0x74, 0xb5, 0x0e, 0xf5]

/-- The data block of T25. -/
def t25Db : List Byte :=
  [0xec, 0x64, 0x0f, 0x5b, 0x41, 0x53, 0x8c, 0x0c, 0x02, 0x81, 0x6d, 0x29, 0xda, 0x4d, 0x6f, 0x39, 0x93, 0x06, 0x4d, 0x3b,
   0xe5, 0x9e, 0x84, 0xad, 0x16, 0x1b, 0xec, 0xa8, 0x77, 0x91, 0x47, 0x34, 0x00, 0x00, 0x00, 0x00, 0x01, 0x48, 0x69]

/-- lHash of T25. -/
def t25LHash : List Byte :=
  [0xec, 0x64, 0x0f, 0x5b, 0x41, 0x53, 0x8c, 0x0c, 0x02, 0x81, 0x6d, 0x29, 0xda, 0x4d, 0x6f, 0x39, 0x93, 0x06, 0x4d, 0x3b,
   0xe5, 0x9e, 0x84, 0xad, 0x16, 0x1b, 0xec, 0xa8, 0x77, 0x91, 0x47, 0x34]

/-- dbMask of T25. -/
def t25DbMask : List Byte :=
  [0x83, 0xaa, 0xff, 0xd5, 0x02, 0xe0, 0x36, 0x75, 0x73, 0x10, 0x83, 0x6b, 0x7c, 0x0f, 0x3f, 0x04, 0x51, 0xe3, 0x9c, 0xa7,
   0x12, 0x51, 0x48, 0xc0, 0xe7, 0x28, 0x68, 0xd2, 0x15, 0x9e, 0xb2, 0xef, 0x8a, 0xff, 0xfe, 0x74, 0xb4, 0x46, 0x9c]

/-- maskedDB of T25. -/
def t25MaskedDb : List Byte :=
  [0x6f, 0xce, 0xf0, 0x8e, 0x43, 0xb3, 0xba, 0x79, 0x71, 0x91, 0xee, 0x42, 0xa6, 0x42, 0x50, 0x3d, 0xc2, 0xe5, 0xd1, 0x9c,
   0xf7, 0xcf, 0xcc, 0x6d, 0xf1, 0x33, 0x84, 0x7a, 0x62, 0x0f, 0xf5, 0xdb, 0x8a, 0xff, 0xfe, 0x74, 0xb5, 0x0e, 0xf5]

/-- seedMask of T25. -/
def t25SeedMask : List Byte :=
  [0x04, 0xad, 0x7d, 0x66, 0x0e, 0x0b, 0x1c, 0xd8, 0x52, 0xd2, 0x6d, 0x05, 0x92, 0xc0, 0xd1, 0x2a, 0x64, 0x58, 0x33, 0xa4,
   0x35, 0xd7, 0x5b, 0x15, 0x6c, 0x15, 0x59, 0xb8, 0x25, 0x0d, 0xb3, 0x18]

/-- The seed mask of a block whose data block is all zero, under the seed of T25. -/
def zeroSeedMask : List Byte :=
  [0x1c, 0x03, 0x73, 0x19, 0xae, 0xcd, 0x73, 0xd0, 0x6c, 0x91, 0xb5, 0xa2, 0xc6, 0x53, 0xad, 0x62, 0x94, 0xe7, 0x77, 0x55,
   0x09, 0x09, 0x78, 0x91, 0xe0, 0x48, 0x32, 0x6a, 0xc5, 0x32, 0x5d, 0x84]

/-- A block without the delimiter, built as block N of T26 but at K = 72 from an all-zero data block. -/
def noDelimiter : List Byte := [0x00] ++ xorStr (counting 32) zeroSeedMask ++ t25DbMask

/-- OAEP_DEC registers of T25: the block at 0, the label byte `label` at 80, output at 100. -/
def t25Dec (block : List Byte) (label : Byte) : State :=
  let s := st 1152 256 72 0 0 80 1 100 0 block
  { s with buf := Memory.write s.buf 80 label }

/-- OAEP_ENC registers of T25: "Hi" at 0, "L" at 2, output at 16; the port answers 00 01 .. 1F. -/
def t25Enc : State :=
  let s := st 1152 256 72 0 2 2 1 16 0 [0x48, 0x69, 0x4C]
  { s with env := { s.env with rng := counting 32 } }

/-! ### Well-formedness -/

/-- Each check refuses an ill-formed term: RSV ≠ 0 (R93), OPC 0x00, OPC 0x0A (R94). -/
theorem test_wellFormed_words :
    commandWordWellFormed 0x00000101 = false ∧ commandWordWellFormed 0x00000000 = false ∧
    commandWordWellFormed 0x0000000A = false ∧ commandWordWellFormed 0x00000009 = true := by decide

/-- Each check refuses an ill-formed term: BUF_BYTES 0 and 65537, BASE not aligned to 0x20000 (R8). -/
theorem test_wellFormed_config :
    (smallCfg 0).wellFormed = false ∧ (smallCfg 65537).wellFormed = false ∧
    { defaultConfig with base := 0x10000 }.wellFormed = false ∧ { defaultConfig with base := 0x40000 }.wellFormed = true := by
  decide

/-- No command is ill-formed: CMDW has no operand (R92). -/
theorem test_wellFormed_instr (i : Instr) : i.wellFormed = true := by cases i <;> rfl

/-- The memory check refuses addresses that do not rise. -/
theorem test_memory_wf : ¬ Memory.wf [(3, 0x01), (3, 0x02)] ∧ ¬ Memory.wf [(4, 0x01), (3, 0x02)] ∧ Memory.wf State.reset.buf := by
  decide

/-! ### Decoding: a word of each family, bit by bit from R90 and R91 -/

theorem test_decode_permutation : decode 0b00000000000000000000000000000001#32 = .ok .clear ∧
    decode 0b00000000000000000000000000000010#32 = .ok .permute := by decide

theorem test_decode_padding : decode 0b00000000000000000000000000000011#32 = .ok .pad := by decide

theorem test_decode_sponge : decode 0b00000000000000000000000000000100#32 = .ok .absorb ∧
    decode 0b00000000000000000000000000000101#32 = .ok .squeeze := by decide

theorem test_decode_hash : decode 0b00000000000000000000000000000110#32 = .ok .hash := by decide

theorem test_decode_mgf : decode 0b00000000000000000000000000000111#32 = .ok .mgf1 := by decide

theorem test_decode_oaep : decode 0b00000000000000000000000000001000#32 = .ok .oaepEnc ∧
    decode 0b00000000000000000000000000001001#32 = .ok .oaepDec := by decide

/-- T30: the words that decode to ILLEGAL. -/
theorem test_decode_illegal : decode 0x00000000 = .error .reservedOpcode ∧ decode 0x0000000A = .error .reservedOpcode ∧
    decode 0x000000FF = .error .reservedOpcode ∧ decode 0x00000100 = .error .reservedBits ∧
    decode 0x80000001 = .error .reservedBits ∧ decode 0xFFFFFFFF = .error .reservedBits := by decide

theorem test_decodeTableWord : decodeTableWord 32 9 = some .oaepDec ∧ decodeTableWord 32 0x109 = none ∧
    decodeTableWord 8 9 = some .oaepDec := by decide

/-! ### The permutation -/

/-- The LFSR of 40_permutation R112 after `t` steps: bit i is the coefficient of x^i, and 0x171 is x^8 + x^6 + x^5 + x^4 + 1. -/
def lfsr (t : Nat) : Nat :=
  match t with
  | 0 => 1
  | t + 1 => if 0x100 ≤ 2 * lfsr t then (2 * lfsr t) ^^^ 0x171 else 2 * lfsr t

/-- R112: the default table is the one its LFSR gives: bit 2^j - 1 of RC[r] is the lowest bit after j + 7r steps, for j = 0 .. 6,
and every other bit is 0. -/
theorem test_rcTable : ∀ r : Fin 24, defaultRc[r].toNat =
    ((List.range 7).map fun j => lfsr (j + 7 * r.val) % 2 * 2 ^ (2 ^ j - 1)).sum := by
  decide +kernel

/-- T3: theta on S[0] = 1, both settings. -/
theorem test_theta :
    theta defaultConfig (zeroLanes.set 0 1) = #v[1, 1, 0, 0, 1, 0, 1, 0, 0, 1, 0, 1, 0, 0, 1, 0, 1, 0, 0, 1, 0, 1, 0, 0, 1] ∧
    theta { defaultConfig with thetaRot1 := true } (zeroLanes.set 0 1) =
      #v[1, 1, 0, 0, 2, 0, 1, 0, 0, 2, 0, 1, 0, 0, 2, 0, 1, 0, 0, 2, 0, 1, 0, 0, 2] := by
  decide +kernel

/-- T4, rows 1 and 9: rho with every lane 1, both orientations. -/
theorem test_rho :
    (rho defaultConfig (Vector.replicate 25 1))[1] = 0x0000001000000000 ∧
    (rho defaultConfig (Vector.replicate 25 1))[9] = 0x0000000000000004 ∧
    (rho { defaultConfig with rhoTable := .transposed } (Vector.replicate 25 1))[1] = 0x0000000000000002 ∧
    (rho { defaultConfig with rhoTable := .transposed } (Vector.replicate 25 1))[9] = 0x0000000000100000 := by
  decide +kernel

/-- T5: pi with S[j] = j. -/
theorem test_pi : piStep (Vector.ofFn fun j => BitVec.ofNat 64 j.val) =
    #v[0, 6, 12, 18, 24, 3, 9, 10, 16, 22, 1, 7, 13, 19, 20, 4, 5, 11, 17, 23, 2, 8, 14, 15, 21] := by
  decide +kernel

/-- T6, first row. -/
theorem test_chi : chi ((zeroLanes.set 0 0x0F).set 2 0xFF) =
    (((zeroLanes.set 0 0xF0).set 2 0xFF).set 3 0x0F) := by
  decide +kernel

/-- CLEAR on lanes that are not zero (T9). -/
theorem test_clear : nextIs (exec .clear { st 0 0 0 0 0 0 0 0 0 [] with lanes := Vector.replicate 25 7 })
    (fun t => t.lanes == zeroLanes && endsWith .none 0 0 [] t) = true := by
  decide

/-- T1: PERMUTE of the zero state, with RATE_BITS = 0 (T9). -/
theorem test_permute : nextIs (exec .permute (st 0 0 0 0 0 0 0 0 0 []))
    (fun t => t.lanes[0] == 0x90BBCAE3F19EF0A3 && t.lanes[13] == 0x9A7FAFB9A1D331AF && endsWith .none 0 0 [] t) = true := by
  simp only [exec, execPermute, keccakP_eq_flat]
  decide +kernel

/-- T2: the FIPS 202 setting. -/
theorem test_permute_fips : (keccakP { defaultConfig with thetaRot1 := true, rhoTable := .transposed } zeroLanes)[7] =
    0x8C5BDA0CD6192E76 := by
  rw [keccakP_eq_flat]
  decide +kernel

/-! ### PAD, ABSORB, SQUEEZE -/

/-- T10's example: 00 01 02 03 04 at RATE_BITS = 8. -/
theorem test_pad : nextIs (exec .pad (st 8 0 0 0 5 0 0 0x100 0 (counting 5)))
    (endsWith .none 6 0x100 [0x00, 0x01, 0x02, 0x03, 0x04, 0x86]) = true := by
  decide

/-- T11: the 2-byte output does not fit at 0xFFFF. -/
theorem test_pad_range : nextIs (exec .pad (st 16 0 0 0 0 0 0 0xFFFF 0 [])) (endsWith .bufRange 0 0 []) = true := by
  decide

/-- T13: one byte 0x00 at RATE_BITS = 8 gives P(0). -/
theorem test_absorb : nextIs (exec .absorb { st 8 0 0 0 1 0 0 0 0 [0x00] with lanes := Vector.replicate 25 9 })
    (fun t => t.lanes[0] == 0x90BBCAE3F19EF0A3 && endsWith .none 0 0 [] t) = true := by
  simp only [exec, execAbsorb, absorb, keccakP_eq_flat]
  decide +kernel

/-- T12: byte 143 of a block lands in lane 18, at bit 0 or at bit 40 (ABSORB_SHIFT). -/
theorem test_absorb_shift : (xorByte defaultConfig 143 0x80 zeroLanes)[18] = 0x80 ∧
    (xorByte { defaultConfig with absorbShift := .div25 } 143 0x80 zeroLanes)[18] = 0x0000800000000000 := by
  decide

/-- T14, first case. -/
theorem test_squeeze :
    nextIs (exec .squeeze { st 0 72 0 0 0 0 0 0x100 0 [] with
        lanes := (zeroLanes.set 0 0x0807060504030201).set 1 0x1817161514131211 })
      (endsWith .none 9 0x100 [0x01, 0x02, 0x03, 0x04, 0x05, 0x06, 0x07, 0x08, 0x11]) = true := by
  decide

/-- T15: 200 bytes at 65337 do not fit. -/
theorem test_squeeze_range : nextIs (exec .squeeze (st 0 1600 0 0 0 0 0 65337 0 [])) (endsWith .bufRange 0 0 []) = true := by
  decide

/-! ### HASH, MGF1, OAEP -/

/-- T16 row 7: "a" at 8/8. -/
theorem test_hash : nextIs (exec .hash (st 8 8 0 0 1 0 0 9 0 [0x61])) (endsWith .none 1 9 [0xC9]) = true := by
  simp only [exec, execHash, hashMsg, absorb, keccakP_eq_flat]
  decide +kernel

/-- T17, last row: "Hello, world!" under every non-default variant. -/
theorem test_hash_variants :
    hashMsg { defaultConfig with thetaRot1 := true, rhoTable := .transposed, absorbShift := .div25 }
      (asciiBytes "Hello, world!") 1152 224 =
    [0xb8, 0xe6, 0xb7, 0xf2, 0x0c, 0x10, 0xf8, 0x41, 0x62, 0x93, 0xea, 0xd8, 0x57, 0x5a,
   0xe5, 0xb8, 0x16, 0x43, 0x2d, 0x90, 0x1f, 0x91, 0x8e, 0xb6, 0x0d, 0xe6, 0x97, 0x66] := by
  simp only [hashMsg, absorb, keccakP_eq_flat]
  decide +kernel

/-- T20: an empty seed, 5 bytes at 1152/224; two blocks are in `t25_dbMask`. -/
theorem test_mgf1 : nextIs (exec .mgf1 (st 1152 224 0 0 0 0 0 64 5 [])) (endsWith .none 5 64 [0x36, 0x41, 0xD8, 0xBA, 0xC4]) = true := by
  simp only [exec, execMgf1, mgf1, hashMsg, absorb, keccakP_eq_flat]
  decide +kernel

/-- T21: an empty mask one byte past the end of BUF. -/
theorem test_mgf1_range : nextIs (exec .mgf1 (st 1152 256 0 0 3 0 0 65537 0 [0x61, 0x62, 0x63])) (endsWith .bufRange 0 0 []) = true := by
  decide

/-- T25: the label hash. -/
theorem t25_lHash : hashMsg defaultConfig [0x4C] 1152 256 = t25LHash := by
  simp only [hashMsg, absorb, keccakP_eq_flat]
  decide +kernel

/-- T25: the mask of the data block, two hashes cut to 39 bytes. -/
theorem t25_dbMask : mgf1 defaultConfig (counting 32) 39 1152 256 = t25DbMask := by
  simp only [mgf1, hashMsg, absorb, keccakP_eq_flat]
  decide +kernel

/-- T25: the mask of the seed. -/
theorem t25_seedMask : mgf1 defaultConfig t25MaskedDb 32 1152 256 = t25SeedMask := by
  simp only [mgf1, hashMsg, absorb, keccakP_eq_flat]
  decide +kernel

theorem zero_seedMask : mgf1 defaultConfig t25DbMask 32 1152 256 = zeroSeedMask := by
  simp only [mgf1, hashMsg, absorb, keccakP_eq_flat]
  decide +kernel

theorem hash_M_ne : hashMsg defaultConfig [0x4D] 1152 256 ≠ t25LHash := by
  simp only [hashMsg, absorb, keccakP_eq_flat]
  decide +kernel

theorem t25_mask : oaepMask defaultConfig t25Db (counting 32) 72 1152 256 = t25Block := by
  have h1 : xorStr t25Db t25DbMask = t25MaskedDb := by decide
  change [0x00] ++ xorStr (counting 32) (mgf1 defaultConfig (xorStr t25Db (mgf1 defaultConfig (counting 32) 39 1152 256)) 32 1152 256) ++
    xorStr t25Db (mgf1 defaultConfig (counting 32) 39 1152 256) = _
  rw [t25_dbMask, h1, t25_seedMask]
  decide

theorem t25_unmask : oaepUnmask defaultConfig t25Block 72 1152 256 = t25Db := by
  have h1 : (t25Block.take 72).drop 33 = t25MaskedDb := by decide
  have h2 : xorStr ((t25Block.drop 1).take 32) t25SeedMask = counting 32 := by decide
  change xorStr ((t25Block.take 72).drop 33) (mgf1 defaultConfig (xorStr ((t25Block.drop 1).take 32)
    (mgf1 defaultConfig ((t25Block.take 72).drop 33) 32 1152 256)) 39 1152 256) = _
  rw [h1, t25_seedMask, h2, t25_dbMask]
  decide

theorem t25_decode : oaepDecode defaultConfig t25Block [0x4C] 72 1152 256 true = .ok [0x48, 0x69] := by
  unfold oaepDecode
  simp only [t25_unmask, t25_lHash]
  decide

theorem noDelimiter_unmask : oaepUnmask defaultConfig noDelimiter 72 1152 256 = List.replicate 39 0x00 := by
  have h1 : (noDelimiter.take 72).drop 33 = t25DbMask := by decide
  have h2 : xorStr ((noDelimiter.drop 1).take 32) zeroSeedMask = counting 32 := by decide
  change xorStr ((noDelimiter.take 72).drop 33) (mgf1 defaultConfig (xorStr ((noDelimiter.drop 1).take 32)
    (mgf1 defaultConfig ((noDelimiter.take 72).drop 33) 32 1152 256)) 39 1152 256) = _
  rw [h1, zero_seedMask, h2, t25_dbMask]
  decide

theorem t25_exec_enc : exec .oaepEnc t25Enc =
    deliver (rngDrawn 32 t25Enc) 72 (oaepMask defaultConfig
      (oaepDb (hashMsg defaultConfig [0x4C] 1152 256) [0x48, 0x69] 72 32) (counting 32) 72 1152 256) := rfl

/-- T25: the encoded block. -/
theorem test_oaepEnc : nextIs (exec .oaepEnc t25Enc) (endsWith .none 72 16 t25Block) = true := by
  have h : oaepDb t25LHash [0x48, 0x69] 72 32 = t25Db := by decide
  rw [t25_exec_enc, t25_lHash, h, t25_mask]
  decide +kernel

/-- T28: K = 65 leaves no room for the empty message at h = 32. -/
theorem test_oaepEnc_long : nextIs (exec .oaepEnc (st 1152 256 65 0 0 0 0 256 0 [])) (endsWith .msgTooLong 0 0 []) = true := by
  decide

theorem t25_exec_dec : exec .oaepDec (t25Dec t25Block 0x4C) =
    deliver (t25Dec t25Block 0x4C) ([0x48, 0x69] : List Byte).length [0x48, 0x69] := by
  have h1 : Memory.readBytes (t25Dec t25Block 0x4C).buf (t25Dec t25Block 0x4C).regs.srcAddr.toNat
      (t25Dec t25Block 0x4C).regs.k.toNat = .ok t25Block := by decide +kernel
  have h2 : Memory.readBytes (t25Dec t25Block 0x4C).buf (t25Dec t25Block 0x4C).regs.auxAddr.toNat
      (t25Dec t25Block 0x4C).regs.auxLen.toNat = .ok [0x4C] := by decide +kernel
  change execOaepDec _ = _
  unfold execOaepDec
  rw [if_neg (by decide +kernel), if_neg (by decide +kernel), if_neg (by decide +kernel), if_neg (by decide +kernel),
    if_neg (by decide +kernel), withBytes_of_ok _ h1, withBytes_of_ok _ h2]
  simp only [show (t25Dec t25Block 0x4C).cfg = defaultConfig from rfl, show (t25Dec t25Block 0x4C).strictY = true from rfl,
    show (t25Dec t25Block 0x4C).regs.k.toNat = 72 from rfl, show (t25Dec t25Block 0x4C).regs.rateBits.toNat = 1152 from rfl,
    show (t25Dec t25Block 0x4C).regs.outBits.toNat = 256 from rfl, t25_decode]

/-- T25: decoding it with label "L". -/
theorem test_oaepDec : nextIs (exec .oaepDec (t25Dec t25Block 0x4C)) (endsWith .none 2 100 [0x48, 0x69]) = true := by
  rw [t25_exec_dec]
  decide +kernel

/-- T26: a leading byte 0x01 under STRICT_Y = 1. -/
theorem test_oaepDec_strict : nextIs (exec .oaepDec (t25Dec (t25Block.set 0 0x01) 0x4C)) (endsWith .malformedPadding 0 0 []) = true := by
  decide

/-! ### The host -/

/-- T32, steps 1 and 2: PERMUTE accepted; a CTRL write while BUSY is dropped. -/
theorem test_accept_and_drop :
    (accepted 2 5 State.reset).status.word = 0x00000001 ∧
    (hostWrite 4 0x00C 0 (pending 2 5 [])).status.word = 0x00000005 ∧ (hostWrite 4 0x00C 0 (pending 2 5 [])).strictY = true := by
  decide

/-- T32, steps 3 and 6: a STATUS write with bit 2 = 0 keeps DROP, with bit 2 = 1 clears it, even while BUSY. -/
theorem test_status_write :
    (hostWrite 4 0x010 0 (dropWrite (pending 2 5 []))).status.word = 0x00000005 ∧
    (hostWrite 4 0x010 4 (dropWrite (pending 2 5 []))).status.word = 0x00000001 := by
  decide

/-- T30: an illegal word is accepted and completes with ERR = 5. -/
theorem test_illegal_word : nextIs (step (pending 0x106 0 [])) (fun t => t.status.word == 0x00000052 && t.cmd == 0x106) = true := by
  decide

/-- R62: a 16-bit write at BUF 2 is little-endian; an access at BUF_BYTES - 2 of 4 bytes is refused. -/
theorem test_buf_window :
    bytesAt (hostWrite 2 0x10002 0xBEEF State.reset) 0 4 = [none, none, some 0xEF, some 0xBE] ∧
    hostReadValue (hostWrite 4 0x10004 0x11223344 State.reset) 1 0x10006 = 0x22 ∧
    hostWrite 4 0x1FFFE 0x11223344 State.reset = State.reset := by
  decide

/-- R21, R46: a lane half, and a reserved word. -/
theorem test_lane_window :
    (hostWrite 4 0x1C4 0xAABBCCDD State.reset).lanes[24] = 0xAABBCCDD00000000 ∧
    hostWrite 4 0x1C8 0xAABBCCDD State.reset = State.reset ∧ hostReadValue State.reset 4 0x0FFFC = 0 := by
  decide

/-- R98: WAIT stays on the list while it reads BUSY = 1, and leaves it when it reads BUSY = 0. -/
theorem test_wait :
    nextIs (step (pending 2 5 [.wait])) (fun t => t.env.bus == [.wait] && t.env.reads == [0x00000001]) = true ∧
    nextIs (step (idle [.wait])) (fun t => t.env.bus == [] && t.env.reads == [0x00000000]) = true := by
  decide

/-- R72(a): under IN_ORDER the accesses are performed in the order of the list. -/
theorem test_inOrder : nextIs (step (idle [.write8 0x10000 1, .write8 0x10000 2]))
    (fun t => t.env.bus == [.write8 0x10000 2] && bytesAt t 0 1 == [some 1]) = true := by
  decide

/-- R8: under a weaker order the one outstanding access is still delivered. -/
theorem test_weaker_single : nextEvent { idle [.wait] with cfg := { defaultConfig with hostOrdering := .weaker } } = some .wait := by
  simp [nextEvent, deliveryIndex, idle, Nat.mod_one]

/-- R97, R99: the script lines expand to their transactions. -/
theorem test_script : (scriptRun .hash).map transactionOf =
    [some ⟨true, 32, 0x014, some 0x00000006⟩, some ⟨false, 32, 0x010, none⟩] := by
  decide

/-- The first instruction after reset is the word that `withFetchWord` places (log 11). -/
theorem test_withFetchWord : nextIs (step (State.reset.withFetchWord 32 1)) (fun t => t.status.word == 0x00000002 && t.cmd == 1) = true ∧
    nextIs (step (State.reset.withFetchWord 32 3)) (fun t => t.status.word == 0x00000012) = true := by
  decide

/-! ### Witnesses: a concrete state and operands that meet the hypotheses of each statement -/

/-- IllegalWordsComplete: each cause, at the edges of its range. -/
theorem witness_IllegalWordsComplete :
    ∀ w ∈ [(0x00000100 : Word), 0x80000001, 0x00000000, 0x0000000A, 0x000000FF],
      (pending w 0 []).status.busy = true ∧ (pending w 0 []).delay = 0 ∧
      ((pending w 0 []).cmd.extractLsb' 8 24 ≠ 0 ∨ ((pending w 0 []).cmd.extractLsb' 0 8).toNat = 0 ∨
        0x0A ≤ ((pending w 0 []).cmd.extractLsb' 0 8).toNat) := by
  intro w hw
  simp only [List.mem_cons, List.not_mem_nil, or_false] at hw
  rcases hw with rfl | rfl | rfl | rfl | rfl <;> decide

theorem witness_IllegalWordsComplete_exec : ∃ t, exec .clear State.reset = .next t := ⟨_, rfl⟩

/-- StepRunsTheDecodedCommand: a due command; an idle engine with nothing outstanding and with each kind of event; a command not
yet due; IN_ORDER. -/
theorem witness_StepRunsTheDecodedCommand :
    ((pending 9 0 []).status.busy = true ∧ (pending 9 0 []).delay = 0 ∧ decode (pending 9 0 []).cmd = .ok .oaepDec) ∧
    ((idle []).status.busy = false ∧ nextEvent (idle []) = none) ∧ (pending 9 1 []).delay ≠ 0 ∧
    (∀ e ∈ [BusEvent.write8 0x1FFFF 0xFF, .write16 0x1FFFE 1, .write32 0x1C4 2, .read8 0, .read16 0x10000, .read32 0x018, .wait, .reset],
      nextEvent (idle [e]) = some e ∧ nextEvent (pending 9 1 [e, .wait]) = some e) ∧
    (idle []).cfg.hostOrdering = .inOrder ∧ (idle [.reset]).env.bus ≠ [] := by
  refine ⟨by decide, by decide, by decide, fun _ _ => ⟨rfl, rfl⟩, by decide, by decide⟩

theorem witness_AcceptanceStartsTheCommand :
    (pending 2 3 []).status.busy = true ∧ (idle [.write32 0x014 0xFFFFFFFF, .wait]).status.busy = false ∧
    nextEvent (idle [.write32 0x014 0xFFFFFFFF, .wait]) = some (.write32 0x014 0xFFFFFFFF) := by
  decide

theorem witness_PendingCommandSeesFixedInputs :
    (pending 2 3 [.write32 0x014 1, .wait]).status.busy = true ∧ 3 ≤ (pending 2 3 [.write32 0x014 1, .wait]).delay ∧
    .reset ∉ (pending 2 3 [.write32 0x014 1, .wait]).env.bus := by
  decide

/-- A pending HASH on an engine whose two bytes of BUF are written. -/
def twoBytes : State := { pending 6 2 [.write8 0x10000 5] with cfg := smallCfg 2, buf := [(0, 0x61), (1, 0x62)] }

theorem witness_EveryAcceptedCommandCompletes :
    twoBytes.status.busy = true ∧ BufWritten twoBytes ∧ .reset ∉ twoBytes.env.bus := by
  decide

/-- WritesWhileBusyAreDropped: CTRL while busy; the last byte of BUF while busy; STATUS; a misaligned register write; a BUF write
one byte too high. -/
theorem witness_WritesWhileBusyAreDropped :
    ((pending 2 3 []).status.busy = true ∧ (0x00C : Offset).toNat < 0x10000 ∧ (0x00C : Offset).toNat % 4 = 0 ∧ (0x00C : Offset) ≠ 0x010) ∧
    (0x10000 ≤ (0x1FFFF : Offset).toNat ∧ (0x1FFFF : Offset).toNat % 1 = 0 ∧
      (0x1FFFF : Offset).toNat - 0x10000 + 1 ≤ (pending 2 3 []).cfg.bufBytes) ∧
    ((0x00E : Offset).toNat < 0x10000 ∧ (0x00E : Offset).toNat % 4 ≠ 0) ∧
    (0x10000 ≤ (0x1FFFE : Offset).toNat ∧ (0x1FFFE : Offset).toNat % 4 ≠ 0) ∧
    (0x10000 ≤ (0x10002 : Offset).toNat ∧ twoBytes.cfg.bufBytes < (0x10002 : Offset).toNat - 0x10000 + 1) := by
  decide

/-- RegisterWindowTakesAlignedWords: a narrow access, and a misaligned one at the last word of the window. -/
theorem witness_RegisterWindowTakesAlignedWords :
    ((0x020 : Offset).toNat < 0x10000 ∧ 2 ≠ 4) ∧ ((0x0FFFE : Offset).toNat < 0x10000 ∧ (0x0FFFE : Offset).toNat % 4 ≠ 0) := by
  decide

/-- BusyReadsFollowTheTable: the invariant with a command pending; and the last aligned word of BUF. -/
theorem witness_BusyReadsFollowTheTable :
    (pending 2 3 []).Inv ∧ (pending 2 3 []).status.busy = true ∧ 0x10000 ≤ (0x1FFFC : Offset).toNat ∧
    (0x1FFFC : Offset).toNat % 4 = 0 ∧ (0x1FFFC : Offset).toNat - 0x10000 + 4 ≤ (pending 2 3 []).cfg.bufBytes := by
  decide

theorem witness_ReadsHaveNoSideEffect : BusEvent.read16 0x1FFFE = .read16 0x1FFFE ∧ BusEvent.wait ≠ .reset := by
  decide

theorem witness_LaneHalvesReadAndWrite :
    (idle []).status.busy = false ∧ (pending 2 3 []).status.busy = true ∧ (0x1C4 : Offset) = BitVec.ofNat 17 (0x104 + 8 * 24) := by
  decide

/-- BufWindowAccesses: misaligned; above BUF_BYTES; admitted at the end of BUF, idle and written, and busy. -/
theorem witness_BufWindowAccesses :
    ((0x10003 : Offset).toNat = 0x10000 + 3 ∧ 3 % 2 ≠ 0) ∧
    ((0x10002 : Offset).toNat = 0x10000 + 2 ∧ twoBytes.cfg.bufBytes < 2 + 1) ∧
    ((0x10000 : Offset).toNat = 0x10000 + 0 ∧ 0 % 2 = 0 ∧ 0 + 2 ≤ twoBytes.cfg.bufBytes ∧ twoBytes.status.busy = true) ∧
    ({ twoBytes with status := State.reset.status }.status.busy = false ∧
      ∀ i < 2, Memory.read twoBytes.buf (0 + i) = some (BitVec.ofNat 8 (0x61 + i))) := by
  decide

theorem witness_ConfigurationRegistersReadBack :
    (idle []).status.busy = false ∧
    Reg.ctrl ∈ [Reg.rateBits, .outBits, .k, .srcAddr, .srcLen, .auxAddr, .auxLen, .dstAddr, .dstLen, .ctrl] := by
  decide

/-- ReservedWordsReadZero: each range at its two ends. -/
theorem witness_ReservedWordsReadZero :
    ∀ off ∈ [(0x01C : Offset), 0x02C, 0x048, 0x0FC, 0x1C8, 0x0FFFC], off.toNat % 4 = 0 ∧
      (off.toNat = 0x01C ∨ off.toNat = 0x02C ∨ (0x048 ≤ off.toNat ∧ off.toNat < 0x100) ∨
        (0x1C8 ≤ off.toNat ∧ off.toNat < 0x10000)) := by
  intro off ho
  simp only [List.mem_cons, List.not_mem_nil, or_false] at ho
  rcases ho with rfl | rfl | rfl | rfl | rfl | rfl <;> decide

theorem witness_ReadOnlyRegistersAreConstant : (idle []).cfg.wellFormed = true ∧ (smallCfg 1).wellFormed = true := by
  decide

theorem witness_ResetAbandonsThePendingCommand :
    nextEvent (pending 2 3 [.reset, .wait]) = some .reset ∧ (pending 2 3 [.reset, .wait]).delay ≠ 0 ∧
    nextEvent (idle [.reset]) = some .reset ∧ (idle [.reset]).status.busy = false := by
  decide

theorem witness_ResetMeetsTheInvariant : defaultConfig.wellFormed = true := by decide

/-- StepKeepsTheInvariant, StepKeepsTheParameters: a host write that BUF takes, and a PERMUTE that completes. -/
theorem witness_StepKeepsTheInvariant :
    ((idle [.write8 0x10005 7]).Inv ∧ ∃ t, step (idle [.write8 0x10005 7]) = .next t) ∧
    ((pending 2 0 []).Inv ∧ ∃ t, step (pending 2 0 []) = .next t) :=
  ⟨⟨by decide, _, rfl⟩, ⟨by decide, _, rfl⟩⟩

/-- DropIsSticky: DROP is 1 and the step goes on. -/
theorem witness_DropIsSticky :
    (dropWrite (pending 2 3 [.write32 0x010 0])).status.drop = true ∧ ∃ t, step (dropWrite (pending 2 3 [.write32 0x010 0])) = .next t :=
  ⟨by decide, _, rfl⟩

/-- StopsOnlyAtUnwrittenBytes: a step that does stop, at the second byte of a message. -/
theorem witness_StopsOnlyAtUnwrittenBytes :
    step { accepted 6 0 (st 8 8 0 0 2 0 0 9 0 [0x61]) with delay := 0 } = .fault (.bufUnwritten 1) := rfl

theorem witness_WrittenBufferNeverStops : BufWritten twoBytes ∧ twoBytes.Inv ∧ nextEvent twoBytes ≠ some .reset := by
  decide

/-- ErrorsChangeNothingElse: a HASH with RATE_BITS = 0. -/
theorem witness_ErrorsChangeNothingElse : ∃ t, exec .hash (st 0 8 0 0 0 0 0 0 0 []) = .next t ∧ t.status.err ≠ .none :=
  ⟨_, rfl, by decide⟩

/-- ConfigErrorCauses: each cause, at the edges of the legal values; and a command that does end with CONFIG. -/
theorem witness_ConfigErrorCauses :
    (∀ r ∈ [(0 : Word), 7, 1601, 1608, 0xFFFFFFF8], ¬ LegalBits (st r 8 0 0 0 0 0 0 0 []).regs.rateBits) ∧
    (∀ o ∈ [(0 : Word), 4, 1608], ¬ LegalBits (st 8 o 0 0 0 0 0 0 0 []).regs.outBits) ∧
    (st 1152 0 0 0 143 0 0 0 0 []).regs.srcLen.toNat % ((st 1152 0 0 0 143 0 0 0 0 []).regs.rateBits.toNat / 8) ≠ 0 ∧
    (st 1152 256 65 0 0 0 0 0 0 []).regs.k.toNat < 2 * ((st 1152 256 65 0 0 0 0 0 0 []).regs.outBits.toNat / 8) + 2 := by
  refine ⟨fun r hr => ?_, fun o ho => ?_, by decide, by decide⟩
  · simp only [List.mem_cons, List.not_mem_nil, or_false] at hr
    rcases hr with rfl | rfl | rfl | rfl | rfl <;> decide
  · simp only [List.mem_cons, List.not_mem_nil, or_false] at ho
    rcases ho with rfl | rfl | rfl <;> decide

theorem witness_ConfigErrorCauses_exec : ∃ t, exec .absorb (st 1152 0 0 0 143 0 0 0 0 []) = .next t ∧ t.status.err = .config :=
  ⟨_, rfl, by decide⟩

/-- RegionsAreChecked: an out-of-range region for each clause, one byte past the end. -/
theorem witness_RegionsAreChecked :
    (LegalBits (st 1152 256 66 65471 0 0 0 0 0 []).regs.rateBits ∧ LegalBits (st 1152 256 66 65471 0 0 0 0 0 []).regs.outBits ∧
      (st 1152 256 66 65471 0 0 0 0 0 []).cfg.bufBytes < 65471 + 66 ∧ 2 * (256 / 8) + 2 ≤ 66) ∧
    ((st 8 8 0 65535 2 0 0 0 0 []).cfg.bufBytes < 65535 + 2 ∧
      (st 8 8 0 65535 2 0 0 0 0 []).regs.srcLen.toNat % ((st 8 8 0 65535 2 0 0 0 0 []).regs.rateBits.toNat / 8) = 0) ∧
    ((st 8 8 66 0 1 65537 0 0 0 [1]).cfg.bufBytes < 65537 + 0 ∧ 0 + 66 ≤ (st 8 8 66 0 1 65537 0 0 0 [1]).cfg.bufBytes) ∧
    (Memory.readBytes (st 8 8 0 0 1 0 0 65536 1 [1]).buf 0 1 = .ok [1] ∧
      (st 8 8 0 0 1 0 0 65536 1 [1]).cfg.bufBytes < 65536 + (padMsg [1] (8 / 8)).length ∧
      (st 8 8 0 0 1 0 0 65536 1 [1]).cfg.bufBytes < 65536 + 8 / 8 ∧ (st 8 8 0 0 1 0 0 65536 1 [1]).cfg.bufBytes < 65536 + 1) := by
  decide

/-- RegionsAreChecked: PAD and ABSORB with OUT_BITS = 0, SQUEEZE with RATE_BITS = 0. -/
theorem witness_RegionsAreChecked_unread :
    (let s := st 8 0 0 65535 2 0 0 65536 0 []
     LegalBits s.regs.rateBits ∧ ¬ LegalBits s.regs.outBits ∧ s.cfg.bufBytes < s.regs.srcAddr.toNat + s.regs.srcLen.toNat ∧
     s.regs.srcLen.toNat % (s.regs.rateBits.toNat / 8) = 0) ∧
    (let s := st 0 1600 0 0 0 0 0 65337 0 []
     LegalBits s.regs.outBits ∧ ¬ LegalBits s.regs.rateBits ∧
     s.cfg.bufBytes < s.regs.dstAddr.toNat + s.regs.outBits.toNat / 8) := by
  decide

/-- RegionsAreChecked, the output regions of OAEP_ENC (T28: K = 66 at 65471) and OAEP_DEC (the two bytes of T25 at 65535). -/
theorem witness_RegionsAreChecked_oaep :
    (let s := st 1152 256 66 0 0 0 0 65471 0 []
     Memory.readBytes s.buf s.regs.srcAddr.toNat s.regs.srcLen.toNat = .ok [] ∧
     Memory.readBytes s.buf s.regs.auxAddr.toNat s.regs.auxLen.toNat = .ok [] ∧
     ([] : List Byte).length + 2 * (s.regs.outBits.toNat / 8) + 2 ≤ s.regs.k.toNat ∧
     s.cfg.bufBytes < s.regs.dstAddr.toNat + s.regs.k.toNat) ∧
    oaepDecode defaultConfig t25Block [0x4C] 72 1152 256 true = .ok [0x48, 0x69] ∧
    defaultConfig.bufBytes < 65535 + ([0x48, 0x69] : List Byte).length := by
  exact ⟨by decide, t25_decode, by decide⟩

/-- LongMessagesAreRejected: one byte too long at K = 66, and the empty message at K = 0. -/
theorem witness_LongMessagesAreRejected :
    (let s := st 1152 256 66 0 1 0 0 256 0 [5]
     LegalBits s.regs.rateBits ∧ LegalBits s.regs.outBits ∧ s.regs.srcAddr.toNat + s.regs.srcLen.toNat ≤ s.cfg.bufBytes ∧
     s.regs.auxAddr.toNat + s.regs.auxLen.toNat ≤ s.cfg.bufBytes ∧
     Memory.readBytes s.buf s.regs.srcAddr.toNat s.regs.srcLen.toNat = .ok [5] ∧
     Memory.readBytes s.buf s.regs.auxAddr.toNat s.regs.auxLen.toNat = .ok [] ∧
     (([5] : List Byte).length : Int) > (s.regs.k.toNat : Int) - 2 * ((s.regs.outBits.toNat / 8 : Nat) : Int) - 2) ∧
    ((([] : List Byte).length : Int) > (((0 : Word).toNat : Nat) : Int) - 2 * ((256 / 8 : Nat) : Int) - 2) := by
  decide

/-- SeedIsDrawnOnceAndOnlyAfterTheChecks: an OAEP_ENC that succeeds, one too long, one whose output does not fit though its
inputs do, one with illegal OUT_BITS, and one with SRC and one with AUX out of range. -/
theorem witness_SeedIsDrawnOnceAndOnlyAfterTheChecks :
    (∃ t, exec .oaepEnc t25Enc = .next t ∧ t.status.err = .none) ∧
    (∃ t, exec .oaepEnc (st 1152 256 65 0 0 0 0 256 0 []) = .next t ∧ t.status.err = .msgTooLong) ∧
    (∃ t, exec .oaepEnc (st 1152 256 66 0 0 0 0 65471 0 []) = .next t ∧ t.status.err = .bufRange) ∧
    (∃ t, exec .oaepEnc (st 1152 0 66 0 0 0 0 0 0 []) = .next t ∧ t.status.err = .config) ∧
    (∃ t, exec .oaepEnc (st 1152 256 66 65535 2 0 0 0 0 []) = .next t ∧ defaultConfig.bufBytes < 65535 + 2) ∧
    (∃ t, exec .oaepEnc (st 1152 256 66 0 0 65537 0 0 0 []) = .next t ∧ defaultConfig.bufBytes < 65537 + 0) ∧
    (∃ t, exec .permute State.reset = .next t) :=
  ⟨⟨_, rfl, rfl⟩, ⟨_, rfl, rfl⟩, ⟨_, rfl, rfl⟩, ⟨_, rfl, rfl⟩, ⟨_, rfl, by decide⟩, ⟨_, rfl, by decide⟩, ⟨_, rfl⟩⟩

theorem witness_LaneCommandsFrame :
    (∃ t, exec .clear State.reset = .next t) ∧ (∃ t, exec .permute State.reset = .next t) ∧
    (∃ t, exec .absorb (st 8 0 0 0 1 0 0 0 0 [0x00]) = .next t ∧ t.status.err = .none) :=
  ⟨⟨_, rfl⟩, ⟨_, rfl⟩, ⟨_, rfl, rfl⟩⟩

/-- BufCommandsFrame: each of the six commands in a case where it succeeds. -/
theorem witness_BufCommandsFrame : defaultConfig.wellFormed = true ∧
    (∃ t, exec .pad (st 8 0 0 0 1 0 0 9 0 [0x61]) = .next t ∧ t.status.err = .none) ∧
    (∃ t, exec .squeeze (st 0 8 0 0 0 0 0 9 0 []) = .next t ∧ t.status.err = .none) ∧
    (∃ t, exec .hash (st 8 8 0 0 1 0 0 9 0 [0x61]) = .next t ∧ t.status.err = .none) ∧
    (∃ t, exec .mgf1 (st 8 8 0 0 1 0 0 9 2 [0x61]) = .next t ∧ t.status.err = .none) ∧
    (∃ t, exec .oaepEnc t25Enc = .next t ∧ t.status.err = .none) ∧
    (∃ t, exec .oaepDec (t25Dec t25Block 0x4C) = .next t ∧ t.status.err = .none) := by
  refine ⟨by decide, ⟨_, rfl, rfl⟩, ⟨_, rfl, rfl⟩, ⟨_, rfl, rfl⟩, ⟨_, rfl, rfl⟩, ⟨_, rfl, rfl⟩, ?_⟩
  obtain ⟨t, h, ht⟩ := exists_next test_oaepDec
  refine ⟨t, h, ?_⟩
  simp only [endsWith, Bool.and_eq_true, beq_iff_eq] at ht
  rw [ht.1.1]

/-- ThetaMixesColumns: without the rotation, two states equal in bit 5 of every lane and not equal. -/
theorem witness_ThetaMixesColumns : defaultConfig.thetaRot1 = false ∧
    (∀ j : Fin 25, (zeroLanes.set 3 1)[j].getLsbD 5 = zeroLanes[j].getLsbD 5) ∧ zeroLanes.set 3 1 ≠ zeroLanes := by
  decide

/-- PermutationRunsTheRoundsInOrder: the sequence of the states between rounds. -/
theorem witness_PermutationRunsTheRoundsInOrder : ∃ g : Nat → Lanes, g 0 = zeroLanes ∧
    ∀ r : Fin 24, g (r.val + 1) = iota defaultConfig r (chi (piStep (rho defaultConfig (theta defaultConfig (g r.val))))) :=
  ⟨fun n => n.rec zeroLanes fun k A => if h : k < 24 then keccakRound defaultConfig A ⟨k, h⟩ else A, rfl, fun r => by simp [keccakRound]⟩

/-- PaddingBytesByCount, PaddingLaws: q = 1, q = 2, q = 3 at R = 3. -/
theorem witness_Padding : 1 ≤ 3 ∧ 3 - (counting 2).length % 3 = 1 ∧ 3 - (counting 1).length % 3 = 2 ∧
    3 ≤ 3 - (counting 3).length % 3 := by
  decide

theorem witness_PadWritesThePaddedMessage :
    (let s := st 16 0 0 0 1 0 0 0xFFFE 0 [0x61]
     LegalBits s.regs.rateBits ∧ s.regs.srcAddr.toNat + s.regs.srcLen.toNat ≤ s.cfg.bufBytes ∧
     Memory.readBytes s.buf s.regs.srcAddr.toNat s.regs.srcLen.toNat = .ok [0x61] ∧
     s.regs.dstAddr.toNat + (padMsg [0x61] (s.regs.rateBits.toNat / 8)).length ≤ s.cfg.bufBytes) := by
  decide

theorem witness_AbsorbTakesBlocksInOrder : 1 ≤ 2 ∧ (counting 4).length % 2 = 0 ∧ (counting 2).length = 2 := by decide

theorem witness_AbsorbReplacesTheLaneFile :
    (let s := st 16 0 0 0 4 0 0 0 0 (counting 4)
     LegalBits s.regs.rateBits ∧ s.regs.srcLen.toNat % (s.regs.rateBits.toNat / 8) = 0 ∧
     s.regs.srcAddr.toNat + s.regs.srcLen.toNat ≤ s.cfg.bufBytes ∧
     Memory.readBytes s.buf s.regs.srcAddr.toNat s.regs.srcLen.toNat = .ok (counting 4)) := by
  decide

theorem witness_SqueezeBytes : 200 ≤ 200 ∧ 199 < 200 := by decide

theorem witness_SqueezeWritesTheLaneBytes :
    (let s := st 0 1600 0 0 0 0 0 65336 0 []
     LegalBits s.regs.outBits ∧ s.regs.dstAddr.toNat + s.regs.outBits.toNat / 8 ≤ s.cfg.bufBytes) := by
  decide

/-- HashWritesTheDigest, and the first of the two HASH runs of HashDependsOnlyOnItsMessage. -/
theorem witness_HashWritesTheDigest :
    (let s := st 8 8 0 0 1 0 0 65535 0 [0x61]
     LegalBits s.regs.rateBits ∧ LegalBits s.regs.outBits ∧ s.regs.srcAddr.toNat + s.regs.srcLen.toNat ≤ s.cfg.bufBytes ∧
     Memory.readBytes s.buf s.regs.srcAddr.toNat s.regs.srcLen.toNat = .ok [0x61] ∧
     s.regs.dstAddr.toNat + s.regs.outBits.toNat / 8 ≤ s.cfg.bufBytes) := by
  decide

/-- HashIsItsSpongeDecomposition: "a" at 8/8, Q = 16, D = 32 (P2 in small). -/
theorem witness_HashIsItsSpongeDecomposition :
    ∃ s s1 s2 s3 s4 : State, s.cfg.wellFormed = true ∧
      exec .pad { s with regs := { s.regs with dstAddr := 16 } } = .next s1 ∧ s1.status.err = .none ∧
      exec .absorb { s1 with regs := { s1.regs with srcAddr := 16, srcLen := s1.resLen } } = .next s2 ∧ s2.status.err = .none ∧
      exec .permute s2 = .next s3 ∧
      exec .squeeze { s3 with regs := { s3.regs with dstAddr := 32 } } = .next s4 ∧ s4.status.err = .none :=
  ⟨st 8 8 0 0 1 0 0 0 0 [0x61], _, _, _, _, by decide, rfl, rfl, rfl, rfl, rfl, rfl, rfl⟩

/-- HashDependsOnlyOnItsMessage: the same message at two places, with other lanes. -/
theorem witness_HashDependsOnlyOnItsMessage :
    ∃ s s' t t' : State, s'.cfg = s.cfg ∧ s'.regs.rateBits = s.regs.rateBits ∧ s'.regs.outBits = s.regs.outBits ∧
      Memory.readBytes s.buf s.regs.srcAddr.toNat s.regs.srcLen.toNat = .ok [0x61] ∧
      Memory.readBytes s'.buf s'.regs.srcAddr.toNat s'.regs.srcLen.toNat = .ok [0x61] ∧
      exec .hash s = .next t ∧ t.status.err = .none ∧ exec .hash s' = .next t' ∧ t'.status.err = .none ∧ s'.lanes ≠ s.lanes :=
  ⟨st 8 8 0 0 1 0 0 9 0 [0x61], { st 8 8 0 2 1 0 0 5 0 [0x00, 0x00, 0x61] with lanes := Vector.replicate 25 7 }, _, _,
    rfl, rfl, rfl, rfl, rfl, rfl, rfl, rfl, rfl, by decide⟩

theorem witness_Mgf1 : 1 ≤ 8 / 8 ∧ 33 ≤ 64 := by decide

theorem witness_Mgf1WritesTheMask :
    (let s := st 1152 256 0 0 3 0 0 65503 33 [0x61, 0x62, 0x63]
     LegalBits s.regs.rateBits ∧ LegalBits s.regs.outBits ∧ s.regs.srcAddr.toNat + s.regs.srcLen.toNat ≤ s.cfg.bufBytes ∧
     Memory.readBytes s.buf s.regs.srcAddr.toNat s.regs.srcLen.toNat = .ok [0x61, 0x62, 0x63] ∧
     s.regs.dstAddr.toNat + s.regs.dstLen.toNat ≤ s.cfg.bufBytes) := by
  decide

theorem witness_OaepEncWritesTheBlock :
    (let s := t25Enc
     LegalBits s.regs.rateBits ∧ LegalBits s.regs.outBits ∧ s.regs.srcAddr.toNat + s.regs.srcLen.toNat ≤ s.cfg.bufBytes ∧
     s.regs.auxAddr.toNat + s.regs.auxLen.toNat ≤ s.cfg.bufBytes ∧
     Memory.readBytes s.buf s.regs.srcAddr.toNat s.regs.srcLen.toNat = .ok [0x48, 0x69] ∧
     Memory.readBytes s.buf s.regs.auxAddr.toNat s.regs.auxLen.toNat = .ok [0x4C] ∧
     ([0x48, 0x69] : List Byte).length + 2 * (s.regs.outBits.toNat / 8) + 2 ≤ s.regs.k.toNat ∧
     s.regs.dstAddr.toNat + s.regs.k.toNat ≤ s.cfg.bufBytes) := by
  decide

/-- The registers, regions and reads that OAEP_DEC checks first, for a T25 block under any label byte. -/
theorem witness_OaepDec_regions :
    (let s := t25Dec t25Block 0x4C
     LegalBits s.regs.rateBits ∧ LegalBits s.regs.outBits ∧ 2 * (s.regs.outBits.toNat / 8) + 2 ≤ s.regs.k.toNat ∧
     s.regs.srcAddr.toNat + s.regs.k.toNat ≤ s.cfg.bufBytes ∧ s.regs.auxAddr.toNat + s.regs.auxLen.toNat ≤ s.cfg.bufBytes ∧
     Memory.readBytes s.buf s.regs.srcAddr.toNat s.regs.k.toNat = .ok t25Block ∧
     Memory.readBytes s.buf s.regs.auxAddr.toNat s.regs.auxLen.toNat = .ok [0x4C] ∧ t25Block[0]? = some 0x00) := by
  decide +kernel

/-- OaepDecWritesTheMessage: the seed and the data block of T25, the delimiter 4 bytes into the rest. -/
theorem witness_OaepDecWritesTheMessage :
    (let s := t25Dec t25Block 0x4C
     counting 32 = xorStr ((t25Block.drop 1).take 32) (mgf1 s.cfg (t25Block.drop (1 + 32)) 32 1152 256) ∧
     t25Db = xorStr (t25Block.drop (1 + 32)) (mgf1 s.cfg (counting 32) (72 - 32 - 1) 1152 256) ∧
     (t25Db.drop 32)[4]? = some 0x01 ∧ (∀ j < 4, (t25Db.drop 32)[j]? ≠ some 0x01) ∧
     t25Db.take 32 = hashMsg s.cfg [0x4C] 1152 256 ∧
     s.regs.dstAddr.toNat + (t25Db.drop (32 + 4 + 1)).length ≤ s.cfg.bufBytes) := by
  have h1 : t25Block.drop (1 + 32) = t25MaskedDb := by decide
  refine ⟨?_, ?_, by decide, by decide, ?_, by decide⟩
  · change _ = xorStr _ (mgf1 defaultConfig (t25Block.drop (1 + 32)) 32 1152 256)
    rw [h1, t25_seedMask]
    decide
  · change _ = xorStr (t25Block.drop (1 + 32)) (mgf1 defaultConfig (counting 32) 39 1152 256)
    rw [h1, t25_dbMask]
    decide
  · change _ = hashMsg defaultConfig [0x4C] 1152 256
    rw [t25_lHash]
    decide

/-- DecodeErrorsInOrder: Y = 0x01 under STRICT_Y = 1; a rest without 0x01; label "M" on the T25 block. The register and region
hypotheses are those of `witness_OaepDec_regions`. -/
theorem witness_DecodeErrorsInOrder :
    ((t25Dec (t25Block.set 0 0x01) 0x4C).strictY = true ∧ (t25Block.set 0 0x01)[0]? ≠ some 0x00) ∧
    (noDelimiter[0]? = some 0x00 ∧ 0x01 ∉ (oaepUnmask defaultConfig noDelimiter 72 1152 256).drop 32) ∧
    (t25Block[0]? = some 0x00 ∧ 0x01 ∈ (oaepUnmask defaultConfig t25Block 72 1152 256).drop 32 ∧
      (oaepUnmask defaultConfig t25Block 72 1152 256).take 32 ≠ hashMsg defaultConfig [0x4D] 1152 256) := by
  have h : t25Db.take 32 = t25LHash := by decide
  refine ⟨by decide, ⟨by decide, ?_⟩, by decide, ?_, ?_⟩
  · rw [noDelimiter_unmask]
    decide
  · rw [t25_unmask]
    decide
  · rw [t25_unmask, h]
    exact hash_M_ne.symm

/-- T25's encoding leaves the label byte "L" at 2, and its byte 23, which is "M", stands at 39. -/
theorem t25_enc_next : ∃ t, exec .oaepEnc t25Enc = .next t ∧ t.status.err = .none ∧ Memory.read t.buf 2 = some 0x4C ∧
    Memory.read t.buf 39 = some 0x4D := by
  have h : nextIs (exec .oaepEnc t25Enc)
      (fun t => t.status.err == .none && bytesAt t 2 1 == [some 0x4C] && bytesAt t 39 1 == [some 0x4D]) = true := by
    have h : oaepDb t25LHash [0x48, 0x69] 72 32 = t25Db := by decide
    rw [t25_exec_enc, t25_lHash, h, t25_mask]
    decide +kernel
  obtain ⟨t, he, ht⟩ := exists_next h
  simp only [Bool.and_eq_true, beq_iff_eq] at ht
  exact ⟨t, he, ht.1.1, by simpa [bytesAt] using ht.1.2, by simpa [bytesAt] using ht.2⟩

/-- EncodeThenDecodeReturnsTheMessage: T25's encoding, then its decoding to offset 100. -/
theorem witness_EncodeThenDecodeReturnsTheMessage :
    (1 ≤ 256 / 8 ∧ 2 * (256 / 8) + 2 ≤ 66 ∧ ([] : List Byte).length ≤ 66 - 2 * (256 / 8) - 2 ∧ (counting 32).length = 256 / 8) ∧
    ∃ t, t25Enc.cfg.wellFormed = true ∧ exec .oaepEnc t25Enc = .next t ∧ t.status.err = .none ∧
      Memory.readBytes t25Enc.buf t25Enc.regs.srcAddr.toNat t25Enc.regs.srcLen.toNat = .ok [0x48, 0x69] ∧
      Memory.readBytes t25Enc.buf t25Enc.regs.auxAddr.toNat t25Enc.regs.auxLen.toNat = .ok [0x4C] ∧
      Memory.readBytes t.buf (2 : Word).toNat (1 : Word).toNat = .ok [0x4C] ∧
      (2 : Word).toNat + (1 : Word).toNat ≤ t25Enc.cfg.bufBytes ∧ (100 : Word).toNat + ([0x48, 0x69] : List Byte).length ≤ t25Enc.cfg.bufBytes := by
  obtain ⟨t, he, hn, h2, -⟩ := t25_enc_next
  exact ⟨by decide, t, by decide, he, hn, by decide, by decide, by simp [Memory.readBytes, h2], by decide, by decide⟩

/-- WrongLabelIsDetected: labels "L" and "M" have different hashes at 1152/256; and T25's encoding, then a decoding under the byte
"M" at 39. -/
theorem witness_WrongLabelIsDetected :
    (1 ≤ 256 / 8 ∧ (counting 32).length = 256 / 8 ∧
      (∃ E, oaepEncode defaultConfig [0x48, 0x69] [0x4C] 72 1152 256 (counting 32) = .ok E) ∧
      hashMsg defaultConfig [0x4D] 1152 256 ≠ hashMsg defaultConfig [0x4C] 1152 256) ∧
    ∃ t, exec .oaepEnc t25Enc = .next t ∧ t.status.err = .none ∧
      Memory.readBytes t25Enc.buf t25Enc.regs.auxAddr.toNat t25Enc.regs.auxLen.toNat = .ok [0x4C] ∧
      Memory.readBytes t.buf (39 : Word).toNat (1 : Word).toNat = .ok [0x4D] ∧
      (39 : Word).toNat + (1 : Word).toNat ≤ t25Enc.cfg.bufBytes ∧
      hashMsg t25Enc.cfg [0x4D] t25Enc.regs.rateBits.toNat t25Enc.regs.outBits.toNat ≠
        hashMsg t25Enc.cfg [0x4C] t25Enc.regs.rateBits.toNat t25Enc.regs.outBits.toNat := by
  obtain ⟨t, he, hn, -, hM⟩ := t25_enc_next
  refine ⟨?_, t, he, hn, by decide, by simp [Memory.readBytes, hM], by decide, ?_⟩
  · rw [t25_lHash]
    exact ⟨by decide, by decide, ⟨_, rfl⟩, hash_M_ne⟩
  · change hashMsg defaultConfig [0x4D] 1152 256 ≠ hashMsg defaultConfig [0x4C] 1152 256
    rw [t25_lHash]
    exact hash_M_ne

end Sys2Proof.Machine.Tests
end

section
/-! PROOFS. The statements of 10_state: what stands at the words of the register window, what a step can do, and from these what
every step keeps and what each completion leaves unchanged. -/

namespace Sys2Proof.Machine

/-! ### Words of the register window -/

/-- The aligned word at `off` lies in the register window, and `l` stands there (20_memory R61, 10_state R32). -/
def WordAt (off : Offset) (l : RegLoc) : Prop := off.toNat < 0x10000 ∧ off.toNat % 4 = 0 ∧ regLocAt off.toNat = l

theorem wordAt_offset (r : Reg) : WordAt (BitVec.ofNat 17 r.offset) (.named r) := by
  have hlt := r.offset_lt
  have hal := r.offset_aligned
  refine ⟨?_, ?_, regLocAt_toNat_offset r⟩ <;> rw [BitVec.toNat_ofNat] <;> omega

theorem wordAt_laneLo (j : Fin 25) : WordAt (BitVec.ofNat 17 (0x100 + 8 * j.val)) (.laneLo j) := by
  have ho : (BitVec.ofNat 17 (0x100 + 8 * j.val)).toNat = 0x100 + 8 * j.val := by rw [BitVec.toNat_ofNat]; omega
  exact ⟨by omega, by omega, by rw [ho, regLocAt_laneLo]⟩

theorem wordAt_laneHi (j : Fin 25) : WordAt (BitVec.ofNat 17 (0x104 + 8 * j.val)) (.laneHi j) := by
  have ho : (BitVec.ofNat 17 (0x104 + 8 * j.val)).toNat = 0x104 + 8 * j.val := by rw [BitVec.toNat_ofNat]; omega
  exact ⟨by omega, by omega, by rw [ho, regLocAt_laneHi]⟩

/-- The words that R32 does not name lie outside the lane file and at no register's offset (10_state R46). -/
theorem wordAt_reserved {off : Offset} (ha : off.toNat % 4 = 0)
    (h : off.toNat = 0x01C ∨ off.toNat = 0x02C ∨ (0x048 ≤ off.toNat ∧ off.toNat < 0x100) ∨
      (0x1C8 ≤ off.toNat ∧ off.toNat < 0x10000)) : WordAt off .reserved := by
  refine ⟨by omega, ha, regLocAt_reserved (by omega) fun r hr => ?_⟩
  have hlt := r.offset_lt
  have hne : r.offset ≠ 0x01C ∧ r.offset ≠ 0x02C := by cases r <;> decide
  omega

section
variable {off : Offset} {l : RegLoc}

theorem WordAt.inBufWindow (h : WordAt off l) : inBufWindow off = false := by
  simp [Machine.inBufWindow, h.1]

theorem WordAt.admitted (h : WordAt off l) (c : Config) : admitted c 4 off = true := by
  simp [Machine.admitted, h.inBufWindow, regAdmitted, h.2.1]

/-- A 32-bit read of such a word answers what stands there. -/
theorem WordAt.hostReadValue (h : WordAt off l) (s : State) : hostReadValue s 4 off = readRegLoc s l := by
  simp [Machine.hostReadValue, h.admitted, h.inBufWindow, h.2.2]

/-- A 32-bit write of such a word, but of STATUS, takes its effect or is dropped (70_reset R262). -/
theorem WordAt.hostWrite (h : WordAt off l) (hs : l ≠ .named .status) (v : Word) (s : State) :
    hostWrite 4 off v s = if s.status.busy then dropWrite s else writeRegLoc l v s := by
  cases hb : s.status.busy <;> simp [Machine.hostWrite, h.admitted, h.inBufWindow, h.2.2, hb, hs]

end

/-! ### What a step can do -/

/-- A step that goes on is a completion that goes on, the completion of an illegal word, or a step of the world outside. -/
theorem step_cases {s t : State} (h : step s = .next t) :
    (engineDue s = true ∧ ∃ i, exec i s = .next t) ∨
    (engineDue s = true ∧ t = raiseError .illegalCmd s) ∨
    (engineDue s = false ∧ t = hostStep s) := by
  unfold step at h
  split at h
  · rename_i hd
    split at h
    · exact .inl ⟨hd, _, h⟩
    · cases h; exact .inr (.inl ⟨hd, rfl⟩)
  · rename_i hd
    cases h; exact .inr (.inr ⟨by simpa using hd, rfl⟩)

theorem engineDue_iff {s : State} : engineDue s = true ↔ s.status.busy = true ∧ s.delay = 0 := by
  simp [engineDue]

/-- A completion of a lane command that goes on raises an error or writes the lane file. -/
theorem LaneEnd.next_cases {s t : State} (h : LaneEnd s (.next t)) :
    (∃ e, t = raiseError e s) ∨ ∃ L, t = finish 0 { s with lanes := L } := by
  cases h with
  | raised e _ => exact .inl ⟨e, rfl⟩
  | written L => exact .inr ⟨L, rfl⟩

/-- A completion of a BUF command that goes on raises an error or writes a region in range, having drawn some bytes. -/
theorem BufEnd.next_cases {s t : State} {d : Nat} (h : BufEnd s d (.next t)) :
    (∃ e n, t = raiseError e (rngDrawn n s)) ∨
    ∃ out, inRange s.cfg s.regs.dstAddr out.length = true ∧ t = delivered (rngDrawn d s) out.length out := by
  cases h with
  | raised e _ => exact .inl ⟨e, 0, by simp⟩
  | late => exact .inl ⟨_, d, rfl⟩
  | written out hr => exact .inr ⟨out, hr, rfl⟩

theorem exec_laneEnd {i : Instr} (h : writesLanes i = true) (s : State) : LaneEnd s (exec i s) := by
  rcases exec_cases i s with ⟨-, he⟩ | ⟨hn, -⟩
  · exact he
  · simp [h] at hn

theorem exec_bufEnd {i : Instr} (h : writesLanes i = false) (s : State) : BufEnd s (maxDraw i s) (exec i s) := by
  rcases exec_cases i s with ⟨hn, -⟩ | ⟨-, he⟩
  · simp [h] at hn
  · exact he

/-- A completion that goes on raises an error, writes the lane file, or writes a region in range of BUF. -/
theorem exec_next_cases {i : Instr} {s t : State} (h : exec i s = .next t) :
    (∃ e n, t = raiseError e (rngDrawn n s)) ∨ (∃ L, t = finish 0 { s with lanes := L }) ∨
    ∃ d out, inRange s.cfg s.regs.dstAddr out.length = true ∧ t = delivered (rngDrawn d s) out.length out := by
  rcases exec_cases i s with ⟨-, he⟩ | ⟨-, he⟩
  · rw [h] at he
    rcases he.next_cases with ⟨e, rfl⟩ | hw
    · exact .inl ⟨e, 0, by simp⟩
    · exact .inr (.inl hw)
  · rw [h] at he
    rcases he.next_cases with hr | ⟨out, hr⟩
    · exact .inl hr
    · exact .inr (.inr ⟨_, out, hr⟩)

/-- An idle word write accepts a command, or changes at most the lanes, CTRL, STATUS.DROP and the configuration registers. -/
theorem writeRegLoc_cases (l : RegLoc) (v : Word) (s : State) :
    writeRegLoc l v s = accept v s ∨
    ∃ L y d R, writeRegLoc l v s =
      { s with lanes := L, strictY := y, status := { s.status with drop := d }, regs := R } := by
  cases l with
  | named r =>
    cases r with
    | cmd => exact .inl rfl
    | _ => exact .inr ⟨_, _, _, _, rfl⟩
  | laneLo j => exact .inr ⟨_, _, _, _, rfl⟩
  | laneHi j => exact .inr ⟨_, _, _, _, rfl⟩
  | reserved => exact .inr ⟨_, _, _, _, rfl⟩

theorem bufBytes_le_of_wellFormed {c : Config} (h : c.wellFormed = true) : c.bufBytes ≤ 65536 := by
  simp only [Config.wellFormed, Bool.and_eq_true, decide_eq_true_eq] at h
  obtain ⟨⟨-, hle⟩, -⟩ := h
  exact hle

/-- An output region in range is short enough for RES_LEN to count it. -/
theorem toNat_ofNat_of_le_bufBytes {c : Config} {n : Nat} (hc : c.wellFormed = true) (h : n ≤ c.bufBytes) :
    (BitVec.ofNat 32 n).toNat = n := by
  have := bufBytes_le_of_wellFormed hc
  rw [BitVec.toNat_ofNat]
  omega

/-! ### The invariant -/

theorem inv_raiseError {s : State} (e : ErrCode) (h : s.Inv) (hd : s.delay = 0) : (raiseError e s).Inv := by
  obtain ⟨hc, hb, -⟩ := h
  exact ⟨hc, hb, by simp [RecordInv, hd]⟩

theorem inv_finish {s : State} {n : Nat} (h : s.Inv) (hd : s.delay = 0) (hn : n ≤ s.cfg.bufBytes) : (finish n s).Inv := by
  obtain ⟨hc, hb, -⟩ := h
  exact ⟨hc, hb, by simpa [RecordInv, hd] using (toNat_ofNat_of_le_bufBytes hc hn).trans_le hn⟩

/-- MemWrite of a region in range keeps the invariant. -/
theorem inv_writeBytes {s : State} {a : Nat} {bs : List Byte} (h : s.Inv) (hb : a + bs.length ≤ s.cfg.bufBytes) :
    { s with buf := Memory.writeBytes s.buf a bs }.Inv := by
  obtain ⟨hc, ⟨hwf, hlt⟩, hr⟩ := h
  exact ⟨hc, ⟨Memory.wf_writeBytes a bs hwf, Memory.writeBytes_bound hlt hb⟩, hr⟩

theorem inv_accept {s : State} (w : Word) (h : s.Inv) : (accept w s).Inv := by
  obtain ⟨hc, hb, -⟩ := h
  exact ⟨by simpa using hc, by simpa [BufInv] using hb, by simp [RecordInv]⟩

theorem inv_resetWith {c : Config} (e : Env) (h : c.wellFormed = true) : (State.resetWith c e).Inv :=
  ⟨h, by simp [BufInv, State.resetWith], by simp [RecordInv, State.resetWith]⟩

theorem inv_exec {i : Instr} {s t : State} (h : s.Inv) (hd : s.delay = 0) (he : exec i s = .next t) : t.Inv := by
  rcases exec_next_cases he with ⟨e, n, rfl⟩ | ⟨L, rfl⟩ | ⟨d, out, hr, rfl⟩
  · exact inv_raiseError (s := rngDrawn n s) e h hd
  · exact inv_finish (s := { s with lanes := L }) h hd (Nat.zero_le _)
  · have hr := inRange_iff.1 hr
    exact inv_finish (inv_writeBytes (s := rngDrawn d s) h hr) hd (Nat.le_trans (Nat.le_add_left ..) hr)

theorem inv_writeEnd {s t : State} (h : s.Inv) (hw : WriteEnd s t) : t.Inv := by
  cases hw with
  | ignored => exact h
  | dropped _ => exact h
  | bytes _ a bs hb => exact inv_writeBytes h hb
  | status v => exact h
  | word _ l v =>
    rcases writeRegLoc_cases l v s with hl | ⟨L, y, d, R, hl⟩
    · rw [hl]; exact inv_accept v h
    · rw [hl]; exact h

theorem inv_busEvent {s : State} (e : BusEvent) (h : s.Inv) : (busEvent e s).Inv := by
  have hev := busEvent_cases e s
  generalize busEvent e s = t at hev
  cases hev with
  | wrote _ hw => exact inv_writeEnd h hw
  | read n off => exact h
  | reset => exact inv_resetWith s.env h.1

theorem inv_lowerDelay {s : State} (h : s.Inv) : { s with delay := s.delay - 1 }.Inv := by
  obtain ⟨hc, hb, hbusy, herr, hdone, hlen, hidle⟩ := h
  exact ⟨hc, hb, hbusy, herr, hdone, hlen, fun hi => by simp [hidle hi]⟩

theorem inv_hostStep {s : State} (h : s.Inv) : (hostStep s).Inv := by
  cases hev : nextEvent s with
  | none => rw [hostStep_none hev]; exact inv_lowerDelay h
  | some e => rw [hostStep_some hev]; exact inv_busEvent e (inv_lowerDelay h)

/-- Settles O21: a completion falls on a step with delay 0 and ends in a consistent record with its region in range; every way
a bus event ends keeps the invariant. -/
theorem stepKeepsTheInvariant : Obligations.StepKeepsTheInvariant := by
  intro s t h ht
  rcases step_cases ht with ⟨hd, i, he⟩ | ⟨hd, rfl⟩ | ⟨-, rfl⟩
  · exact inv_exec h (engineDue_iff.1 hd).2 he
  · exact inv_raiseError _ h (engineDue_iff.1 hd).2
  · exact inv_hostStep h

/-- Settles O20: the reset state has an empty BUF and an idle, clear record. -/
theorem resetMeetsTheInvariant : Obligations.ResetMeetsTheInvariant :=
  ⟨inv_resetWith _ (by decide), fun _ e h => inv_resetWith e h⟩

/-! ### What a step keeps -/

theorem cfg_exec {i : Instr} {s t : State} (h : exec i s = .next t) : t.cfg = s.cfg := by
  rcases exec_next_cases h with ⟨e, n, rfl⟩ | ⟨L, rfl⟩ | ⟨d, out, -, rfl⟩ <;> rfl

theorem cfg_writeRegLoc (l : RegLoc) (v : Word) (s : State) : (writeRegLoc l v s).cfg = s.cfg := by
  rcases writeRegLoc_cases l v s with h | ⟨L, y, d, R, h⟩
  · rw [h, accept_cfg]
  · rw [h]

theorem cfg_busEvent (e : BusEvent) (s : State) : (busEvent e s).cfg = s.cfg := by
  have hev := busEvent_cases e s
  generalize busEvent e s = t at hev
  cases hev with
  | wrote _ hw =>
    cases hw with
    | word _ l v => exact cfg_writeRegLoc l v s
    | _ => rfl
  | _ => rfl

theorem cfg_hostStep (s : State) : (hostStep s).cfg = s.cfg := by
  cases hev : nextEvent s with
  | none => rw [hostStep_none hev]
  | some e => rw [hostStep_some hev]; exact cfg_busEvent e _

/-- Settles O22: neither a completion nor a bus event writes the parameters. -/
theorem stepKeepsTheParameters : Obligations.StepKeepsTheParameters := by
  intro s t h
  rcases step_cases h with ⟨-, i, he⟩ | ⟨-, rfl⟩ | ⟨-, rfl⟩
  · exact cfg_exec he
  · rfl
  · exact cfg_hostStep s

/-! ### DROP -/

theorem drop_exec {i : Instr} {s t : State} (h : exec i s = .next t) : t.status.drop = s.status.drop := by
  rcases exec_next_cases h with ⟨e, n, rfl⟩ | ⟨L, rfl⟩ | ⟨d, out, -, rfl⟩ <;> rfl

/-- Only a write of STATUS writes DROP while BUSY = 0. -/
theorem drop_writeRegLoc {l : RegLoc} (v : Word) (s : State) (h : l ≠ .named .status) :
    (writeRegLoc l v s).status.drop = s.status.drop := by
  cases l with
  | named r =>
    cases r with
    | status => exact absurd rfl h
    | cmd => simp [writeRegLoc, writeReg]
    | _ => rfl
  | _ => rfl

/-- An admitted access at the place of STATUS is the 32-bit access at 0x010. -/
theorem eq_of_admitted_status {c : Config} {n : Nat} {off : Offset} (ha : admitted c n off = true)
    (hw : inBufWindow off = false) (hl : regLocAt off.toNat = .named .status) : n = 4 ∧ off = 0x010 := by
  simp only [admitted, hw, Bool.false_eq_true, if_false, regAdmitted, Bool.and_eq_true, decide_eq_true_eq] at ha
  exact ⟨ha.1, BitVec.eq_of_toNat_eq (regLocAt_named hl)⟩

/-- A host write clears DROP only as a 32-bit STATUS write with bit 2 = 1 (10_state R37). -/
theorem drop_hostWrite {s : State} (n : Nat) (off : Offset) (v : Word) (hd : s.status.drop = true) :
    (hostWrite n off v s).status.drop = true ∨ (n = 4 ∧ off = 0x010 ∧ v.getLsbD 2 = true) := by
  unfold hostWrite
  split
  · exact .inl hd
  · rename_i ha
    split
    · split
      · exact .inl rfl
      · exact .inl hd
    · rename_i hw
      split
      · exact .inl rfl
      · by_cases hl : regLocAt off.toNat = .named .status
        · obtain ⟨hn, ho⟩ := eq_of_admitted_status (by simpa using ha) (by simpa using hw) hl
          rw [hl]
          cases hv : v.getLsbD 2
          · exact .inl (by simp only [writeRegLoc, writeReg, Status.hostWrite_drop, hd, hv]; rfl)
          · exact .inr ⟨hn, ho, rfl⟩
        · exact .inl ((drop_writeRegLoc v s hl).trans hd)

theorem drop_busEvent {s : State} (e : BusEvent) (hd : s.status.drop = true) :
    (busEvent e s).status.drop = true ∨ e = .reset ∨ ∃ v : Word, v.getLsbD 2 = true ∧ e = .write32 0x010 v := by
  cases e with
  | write8 off v => exact (drop_hostWrite 1 off _ hd).imp_right fun h => absurd h.1 (by decide)
  | write16 off v => exact (drop_hostWrite 2 off _ hd).imp_right fun h => absurd h.1 (by decide)
  | write32 off v =>
    refine (drop_hostWrite 4 off v hd).imp_right ?_
    rintro ⟨-, rfl, hv⟩
    exact .inr ⟨v, hv, rfl⟩
  | reset => exact .inr (.inl rfl)
  | _ => exact .inl hd

/-- Settles O23: a completion keeps DROP, and of the bus events only the two exceptions clear it. -/
theorem dropIsSticky : Obligations.DropIsSticky := by
  intro s t hd h
  rcases step_cases h with ⟨-, i, he⟩ | ⟨-, rfl⟩ | ⟨hdue, rfl⟩
  · exact .inl ((drop_exec he).trans hd)
  · exact .inl hd
  · cases hev : nextEvent s with
    | none => rw [hostStep_none hev]; exact .inl hd
    | some e =>
      rw [hostStep_some hev]
      refine (drop_busEvent (s := eventState e s) e hd).imp_right fun he => ⟨hdue, ?_⟩
      exact he.imp (congrArg some) fun ⟨v, hv, hw⟩ => ⟨v, hv, congrArg some hw⟩

/-! ### What a completion keeps -/

theorem keepsRegisters_refl (s : State) : KeepsRegisters s s :=
  ⟨rfl, rfl, rfl, rfl, rfl, rfl, rfl, rfl⟩

/-- Settles O31: such a command ends by raising an error or by writing the lane file, and draws nothing. -/
theorem laneCommandsFrame : Obligations.LaneCommandsFrame := by
  intro i s t hi h
  have hl : writesLanes i = true := by rcases hi with rfl | rfl | rfl <;> rfl
  have he := exec_laneEnd hl s
  rw [h] at he
  rcases he.next_cases with ⟨e, rfl⟩ | ⟨L, rfl⟩
  · exact ⟨fun _ => rfl, keepsRegisters_refl s, rfl, rfl, rfl, rfl, rfl⟩
  · exact ⟨fun _ => rfl, keepsRegisters_refl s, rfl, rfl, rfl, rfl, rfl⟩

/-- Settles O32: such a command ends by raising an error, with RES_LEN = 0, or by writing the RES_LEN bytes at DST_ADDR; a
region in range is short enough for RES_LEN to hold its length. -/
theorem bufCommandsFrame : Obligations.BufCommandsFrame := by
  intro i s t hi hc h
  have hl : writesLanes i = false := by rcases hi with rfl | rfl | rfl | rfl | rfl | rfl <;> rfl
  have he := exec_bufEnd hl s
  rw [h] at he
  rcases he.next_cases with ⟨e, n, rfl⟩ | ⟨out, hr, rfl⟩
  · exact ⟨rfl, keepsRegisters_refl s, rfl, rfl, rfl, fun _ _ => rfl⟩
  · refine ⟨rfl, keepsRegisters_refl s, rfl, rfl, rfl, fun x hx => ?_⟩
    have hlen : (BitVec.ofNat 32 out.length).toNat = out.length :=
      toNat_ofNat_of_le_bufBytes hc (Nat.le_trans (Nat.le_add_left ..) (inRange_iff.1 hr))
    rw [delivered_resLen, hlen] at hx
    exact Memory.read_writeBytes_outside s.buf _ out hx

/-! ### Named registers -/

/-- The registers that take what the host writes to them: the nine of R40-R45, and CTRL. -/
abbrev hostRegs : List Reg := [.rateBits, .outBits, .k, .srcAddr, .srcLen, .auxAddr, .auxLen, .dstAddr, .dstLen, .ctrl]

/-- A write of such a register changes nothing outside CTRL and the configuration registers. -/
theorem writeReg_of_mem_hostRegs {r : Reg} (h : r ∈ hostRegs) (v : Word) (s : State) :
    ∃ y R, writeReg r v s = { s with strictY := y, regs := R } := by
  simp only [hostRegs, List.mem_cons, List.not_mem_nil, or_false] at h
  rcases h with rfl | rfl | rfl | rfl | rfl | rfl | rfl | rfl | rfl | rfl <;> exact ⟨_, _, rfl⟩

/-- CTRL takes bit 0 of the word written (10_state R36). -/
theorem ctrlWord_getLsbD_zero (v : Word) : ctrlWord (v.getLsbD 0) = v &&& 1 := by
  refine Eq.trans ?_ BitVec.and_one_eq_setWidth_ofBool_getLsbD.symm
  cases v.getLsbD 0 <;> rfl

theorem readReg_writeReg_same {r : Reg} (h : r ∈ hostRegs) (v : Word) (s : State) :
    readReg (writeReg r v s) r = if r = .ctrl then v &&& 1 else v := by
  by_cases hc : r = .ctrl
  · subst hc; exact ctrlWord_getLsbD_zero v
  · simp only [hostRegs, List.mem_cons, List.not_mem_nil, hc, or_false] at h
    rcases h with rfl | rfl | rfl | rfl | rfl | rfl | rfl | rfl | rfl <;> rfl

theorem readReg_writeReg_ne {r r' : Reg} (h : r ∈ hostRegs) (hne : r' ≠ r) (v : Word) (s : State) :
    readReg (writeReg r v s) r' = readReg s r' := by
  simp only [hostRegs, List.mem_cons, List.not_mem_nil, or_false] at h
  rcases h with rfl | rfl | rfl | rfl | rfl | rfl | rfl | rfl | rfl | rfl <;>
    (cases r' <;> simp [readReg, writeReg] at hne ⊢)

/-- Settles O15: `readReg_writeReg_same` and `readReg_writeReg_ne` at the register's own offset. -/
theorem configurationRegistersReadBack : Obligations.ConfigurationRegistersReadBack := by
  intro s r v hb hr
  simp only [hostWrite_offset r v hb, hostReadValue_offset]
  obtain ⟨y, R, hw⟩ := writeReg_of_mem_hostRegs hr v s
  refine ⟨readReg_writeReg_same hr v s, fun r' hne => readReg_writeReg_ne hr hne v s, ?_⟩
  rw [hw]
  exact ⟨rfl, rfl, rfl, rfl, rfl, rfl⟩

/-! ### Reserved words and bits -/

theorem status_word_reserved (st : Status) : st.word &&& 0xFFFFFF08 = 0 := by
  have h : ∀ (e : BitVec 4) (d n b : Bool), ((0#24) ++ e ++ (0#1) ++ BitVec.ofBool d ++ BitVec.ofBool n ++ BitVec.ofBool b) &&&
      0xFFFFFF08#32 = 0 := by decide
  exact h ..

theorem ctrlWord_reserved (y : Bool) : ctrlWord y &&& 0xFFFFFFFE = 0 := by
  cases y <;> rfl

theorem capsWord_reserved (c : Config) : capsWord c &&& 0xFFFFFFF8 = 0 := by
  have h : ∀ a r t : Bool, ((0#29) ++ BitVec.ofBool a ++ BitVec.ofBool r ++ BitVec.ofBool t) &&& 0xFFFFFFF8#32 = 0 := by decide
  exact h ..

/-- Settles O16: such a word is neither a register nor a lane half; the reserved bits stand outside the fields of each word. -/
theorem reservedWordsReadZero : Obligations.ReservedWordsReadZero := by
  refine ⟨fun s off v ha ho => ?_, fun s => ⟨?_, ?_, ?_⟩, fun s v hb => ⟨?_, ?_⟩⟩
  · have hw := wordAt_reserved ha ho
    exact ⟨hw.hostReadValue s, hw.hostWrite (by simp) v s⟩
  · exact ctrlWord_reserved s.strictY
  · exact status_word_reserved s.status
  · exact capsWord_reserved s.cfg
  · have h : (v &&& 1).getLsbD 0 = v.getLsbD 0 := by simp
    have hw := fun v => hostWrite_offset .ctrl v hb
    exact (hw v).trans (.trans (by simp only [writeReg, h]) (hw (v &&& 1)).symm)
  · have h : (v &&& 4).getLsbD 2 = v.getLsbD 2 := by simp
    have hw := fun v => hostWrite_offset .status v hb
    exact (hw v).trans (.trans (by simp only [writeReg, Status.hostWrite, h]) (hw (v &&& 4)).symm)

/-! ### Read-only registers -/

theorem capsWord_toNat (c : Config) : (capsWord c).toNat =
    c.thetaRot1.toNat + (if c.rhoTable = .transposed then 2 else 0) + (if c.absorbShift = .div25 then 4 else 0) := by
  have h : ∀ a r t : Bool, ((0#29) ++ BitVec.ofBool a ++ BitVec.ofBool r ++ BitVec.ofBool t).toNat =
      t.toNat + 2 * r.toNat + 4 * a.toNat := by decide
  refine (h ..).trans ?_
  cases c.rhoTable <;> cases c.absorbShift <;> rfl

/-- A write of a read-only register (10_state R32). -/
theorem hostWrite_readOnly {r : Reg} (h : r = .id ∨ r = .caps ∨ r = .bufsize ∨ r = .resLen) (v : Word) (s : State) :
    hostWrite 4 (BitVec.ofNat 17 r.offset) v s = if s.status.busy then dropWrite s else s := by
  have hw : writeRegLoc (.named r) v s = s := by rcases h with rfl | rfl | rfl | rfl <;> rfl
  have hs : r ≠ .status := by rcases h with rfl | rfl | rfl | rfl <;> decide
  rw [(wordAt_offset r).hostWrite (by simpa using hs), hw]

/-- Settles O17: the three registers are functions of the parameters, and none of the four takes a write. -/
theorem readOnlyRegistersAreConstant : Obligations.ReadOnlyRegistersAreConstant := by
  intro s v
  refine ⟨hostReadValue_offset s .id, ?_, fun hc => ?_, ?_⟩
  · exact (congrArg _ (hostReadValue_offset s .caps)).trans (capsWord_toNat s.cfg)
  · refine (congrArg _ (hostReadValue_offset s .bufsize)).trans (toNat_ofNat_of_le_bufBytes hc le_rfl)
  · simp only [List.forall_mem_cons, List.not_mem_nil, false_imp_iff, implies_true, and_true]
    exact ⟨hostWrite_readOnly (r := .id) (by simp) v s, hostWrite_readOnly (r := .caps) (by simp) v s,
      hostWrite_readOnly (r := .bufsize) (by simp) v s, hostWrite_readOnly (r := .resLen) (by simp) v s⟩

/-! ### Lane halves -/

/-- Setting one lane leaves the others. -/
theorem getElem_setLane_ne {i j : Fin 25} (L : Lanes) (l : Lane) (h : i ≠ j) : (L.set j l)[i] = L[i] :=
  Vector.getElem_set_ne _ _ fun e => h (Fin.ext e.symm)

/-- Settles O13: the four accesses at the offsets of a lane's halves, idle and busy. -/
theorem laneHalvesReadAndWrite : Obligations.LaneHalvesReadAndWrite := by
  intro s j w
  have hlo := wordAt_laneLo j
  have hhi := wordAt_laneHi j
  have wlo := hlo.hostWrite (by simp) w s
  have whi := hhi.hostWrite (by simp) w s
  refine ⟨fun hb => ?_, fun hb off ho => ?_⟩
  · have hn : ¬s.status.busy = true := by simp [hb]
    refine ⟨(hlo.hostReadValue s).trans (if_neg hn), (hhi.hostReadValue s).trans (if_neg hn), ?_, ?_⟩
    · exact ⟨_, wlo.trans (if_neg hn), Vector.getElem_set_self _, fun i hi => getElem_setLane_ne _ _ hi⟩
    · exact ⟨_, whi.trans (if_neg hn), Vector.getElem_set_self _, fun i hi => getElem_setLane_ne _ _ hi⟩
  · rcases ho with rfl | rfl
    · exact ⟨wlo.trans (if_pos hb), (hlo.hostReadValue s).trans (if_pos hb)⟩
    · exact ⟨whi.trans (if_pos hb), (hhi.hostReadValue s).trans (if_pos hb)⟩

/-! ### STATUS and the reset values -/

/-- The layout of STATUS (10_state R37). -/
theorem status_word_toNat (st : Status) : st.word.toNat =
    st.busy.toNat + 2 * st.done.toNat + 4 * st.drop.toNat + 16 * st.err.code.toNat := by
  have h : ∀ (e : BitVec 4) (d n b : Bool),
      ((0#24) ++ e ++ (0#1) ++ BitVec.ofBool d ++ BitVec.ofBool n ++ BitVec.ofBool b).toNat =
        b.toNat + 2 * n.toNat + 4 * d.toNat + 16 * e.toNat := by decide
  exact h ..

/-- Settles O8: the layout of the word, and the three registers read at their offsets. -/
theorem statusWordLayout : Obligations.StatusWordLayout :=
  ⟨status_word_toNat, rfl, rfl, rfl, rfl, rfl, rfl, rfl, fun s =>
    ⟨hostReadValue_offset s .status, hostReadValue_offset s .cmd, hostReadValue_offset s .resLen⟩⟩

/-- Settles O18: every register and lane half reads the field that the reset has set. -/
theorem resetRegisterValues : Obligations.ResetRegisterValues := by
  intro c e
  have hr := hostReadValue_offset (State.resetWith c e)
  have hctrl : ctrlWord true = 1 := by decide
  have hstatus : Status.word { busy := false, done := false, drop := false, err := .none } = 0 := by decide
  have hl : ∀ j : Fin 25, (State.resetWith c e).lanes[j] = 0 := fun j => Vector.getElem_replicate _
  refine ⟨hr .id, hr .caps, hr .bufsize, (hr .ctrl).trans hctrl, (hr .status).trans hstatus, hr .cmd, hr .resLen,
    hr .rateBits, hr .outBits, hr .k, hr .srcAddr, hr .srcLen, hr .auxAddr, hr .auxLen, hr .dstAddr, hr .dstLen,
    fun j => ⟨hl j, ?_, ?_⟩, fun a => rfl⟩
  · rw [(wordAt_laneLo j).hostReadValue, readRegLoc, hl]; rfl
  · rw [(wordAt_laneHi j).hostReadValue, readRegLoc, hl]; rfl

end Sys2Proof.Machine
end

section
/-! PROOFS. The statements of 20_memory: accesses that are not admitted, the accesses of the buffer window, what the host cannot
change while a command is pending, and where the machine stops. -/

namespace Sys2Proof.Machine

/-! ### Accesses that are not admitted -/

theorem hostReadValue_of_not_admitted {s : State} {n : Nat} {off : Offset} (h : admitted s.cfg n off = false) :
    hostReadValue s n off = 0 := by
  simp [hostReadValue, h]

theorem hostWrite_of_not_admitted {s : State} {n : Nat} {off : Offset} (v : Word) (h : admitted s.cfg n off = false) :
    hostWrite n off v s = s := by
  simp [hostWrite, h]

/-- The register window admits aligned 32-bit accesses only (20_memory R61). -/
theorem admitted_regWindow {off : Offset} (c : Config) (n : Nat) (h : off.toNat < 0x10000) :
    admitted c n off = true ↔ n = 4 ∧ off.toNat % 4 = 0 := by
  simp [admitted, inBufWindow, h, regAdmitted]

/-- Settles O10: such an access is not admitted. -/
theorem registerWindowTakesAlignedWords : Obligations.RegisterWindowTakesAlignedWords := by
  intro s n off v _ hoff hbad
  have ha : admitted s.cfg n off = false := by
    rw [← Bool.not_eq_true, admitted_regWindow s.cfg n hoff]
    omega
  exact ⟨hostReadValue_of_not_admitted ha, hostWrite_of_not_admitted v ha⟩

/-! ### The buffer window -/

section
variable {s : State} {n a : Nat} {off : Offset}

theorem inBufWindow_of_toNat_eq (h : off.toNat = 0x10000 + a) : inBufWindow off = true := by
  simp [inBufWindow, h]

/-- The window starts at a multiple of every access width, so an access is aligned iff its BUF offset is (20_memory R62). -/
theorem admitted_bufWindow (c : Config) (hn : n = 1 ∨ n = 2 ∨ n = 4) (h : off.toNat = 0x10000 + a) :
    admitted c n off = true ↔ a % n = 0 ∧ a + n ≤ c.bufBytes := by
  have hal : (0x10000 + a) % n = a % n := by rcases hn with rfl | rfl | rfl <;> omega
  simp [admitted, inBufWindow_of_toNat_eq h, bufAdmitted, h, hal]

theorem hostWrite_bufWindow_idle (v : Word) (ho : off.toNat = 0x10000 + a) (ha : admitted s.cfg n off = true)
    (hb : s.status.busy = false) : hostWrite n off v s = { s with buf := Memory.writeBytes s.buf a (leBytes n v) } := by
  simp [hostWrite, ha, inBufWindow_of_toNat_eq ho, hb, ho]

theorem hostWrite_bufWindow_busy (v : Word) (ho : off.toNat = 0x10000 + a) (ha : admitted s.cfg n off = true)
    (hb : s.status.busy = true) : hostWrite n off v s = dropWrite s := by
  simp [hostWrite, ha, inBufWindow_of_toNat_eq ho, hb]

theorem hostReadValue_bufWindow_idle (ho : off.toNat = 0x10000 + a) (ha : admitted s.cfg n off = true)
    (hb : s.status.busy = false) : hostReadValue s n off = hostBytes s a 0 n := by
  simp [hostReadValue, ha, inBufWindow_of_toNat_eq ho, hb, ho]

theorem hostReadValue_bufWindow_busy (ho : off.toNat = 0x10000 + a) (ha : admitted s.cfg n off = true)
    (hb : s.status.busy = true) : hostReadValue s n off = cutToWidth n (freeWord s) := by
  simp [hostReadValue, ha, inBufWindow_of_toNat_eq ho, hb]

end

/-- Cutting a word to an access width keeps its low `n` bytes. -/
theorem cutToWidth_toNat {n : Nat} (hn : n ≤ 4) (w : Word) : (cutToWidth n w).toNat = w.toNat % 2 ^ (8 * n) := by
  have hle : 2 ^ (8 * n) ≤ 2 ^ 32 := Nat.pow_le_pow_right (by omega) (by omega)
  have hlt : w.toNat % 2 ^ (8 * n) < 2 ^ (8 * n) := Nat.mod_lt _ (by positivity)
  rw [cutToWidth, BitVec.toNat_setWidth, BitVec.toNat_setWidth]
  exact Nat.mod_eq_of_lt (by omega)

/-- The little-endian value of the bytes `b 0, ..., b (n - 1)` (20_memory R62). -/
def leSum (b : Nat → Byte) (n : Nat) : Nat := ((List.range n).map fun i => (b i).toNat * 2 ^ (8 * i)).sum

/-- The lowest byte, and the rest one byte higher. -/
theorem leSum_succ (b : Nat → Byte) (n : Nat) :
    leSum b (n + 1) = (b 0).toNat + leSum (fun i => b (i + 1)) n * 2 ^ 8 := by
  have hstep : ∀ i, (b (i + 1)).toNat * 2 ^ (8 * (i + 1)) = (b (i + 1)).toNat * 2 ^ (8 * i) * 2 ^ 8 := fun i => by
    rw [Nat.mul_assoc, ← Nat.pow_add, Nat.mul_succ]
  simp only [leSum, List.range_succ_eq_map, List.map_cons, List.map_map, List.sum_cons, Function.comp_def, hstep,
    List.sum_map_mul_right]
  simp

theorem leSum_lt (b : Nat → Byte) (n : Nat) : leSum b n < 2 ^ (8 * n) := by
  induction n generalizing b with
  | zero => simp [leSum]
  | succ n ih =>
    have hb := (b 0).isLt
    have hr := ih fun i => b (i + 1)
    rw [leSum_succ, Nat.mul_succ, Nat.pow_add]
    omega

/-- Written bytes read as their little-endian value, which fits the 32-bit bus word. -/
theorem hostBytes_toNat {s : State} (n a i : Nat) (b : Nat → Byte) (hn : n ≤ 4)
    (h : ∀ j < n, Memory.read s.buf (a + j) = some (b j)) : (hostBytes s a i n).toNat = leSum b n := by
  induction n generalizing a i b with
  | zero => rfl
  | succ n ih =>
    have hrest := ih (a + 1) (i + 1) (fun j => b (j + 1)) (by omega) fun j hj => by
      rw [← h (j + 1) (by omega), Nat.add_right_comm, Nat.add_assoc]
    have hbyte : hostByte s a i = b 0 := by
      rw [hostByte, show Memory.read s.buf a = some (b 0) from h 0 (by omega), Option.getD_some]
    have hfit : leSum b (n + 1) < 2 ^ 32 :=
      (leSum_lt b (n + 1)).trans_le (Nat.pow_le_pow_right (by omega) (by omega))
    have hlow : (b 0).toNat < 2 ^ 32 := (b 0).isLt.trans (by decide)
    rw [leSum_succ] at hfit ⊢
    rw [hostBytes, hbyte, BitVec.toNat_add, BitVec.toNat_shiftLeft, hrest, BitVec.toNat_setWidth, Nat.shiftLeft_eq,
      Nat.mod_eq_of_lt hlow, Nat.add_mod_mod, Nat.mod_eq_of_lt hfit]

/-- An idle write stores the bytes of `v`, the least significant first, in its own region only. -/
theorem read_writeBytes_leBytes (m : Memory) (a n : Nat) (v : Word) :
    (∀ i < n, Memory.read (Memory.writeBytes m a (leBytes n v)) (a + i) = some (v.extractLsb' (8 * i) 8)) ∧
    (∀ x, x < a ∨ a + n ≤ x → Memory.read (Memory.writeBytes m a (leBytes n v)) x = Memory.read m x) := by
  refine ⟨fun i hi => ?_, fun x hx => ?_⟩
  · rw [Memory.read_writeBytes_inside m a _ (by simpa using hi)]
    simp [leBytes]
  · exact Memory.read_writeBytes_outside m a _ (by simpa using hx)

/-- Settles O14: by whether the access is admitted, and then by BUSY. -/
theorem bufWindowAccesses : Obligations.BufWindowAccesses := by
  intro s n a off v hn ho
  have hiff := admitted_bufWindow s.cfg hn ho
  have hn4 : n ≤ 4 := by omega
  refine ⟨fun hbad => ?_, fun hal hle => ?_⟩
  · have ha : admitted s.cfg n off = false := by
      rw [← Bool.not_eq_true, hiff]
      omega
    exact ⟨hostReadValue_of_not_admitted ha, hostWrite_of_not_admitted v ha⟩
  · have ha := hiff.2 ⟨hal, hle⟩
    refine ⟨fun hb => ⟨?_, fun b hread => ?_⟩, fun hb => ⟨hostWrite_bufWindow_busy v ho ha hb, ?_⟩⟩
    · exact ⟨_, hostWrite_bufWindow_idle v ho ha hb, read_writeBytes_leBytes s.buf a n v⟩
    · rw [hostReadValue_bufWindow_idle ho ha hb]
      exact hostBytes_toNat n a 0 b hn4 hread
    · rw [hostReadValue_bufWindow_busy ho ha hb]
      exact cutToWidth_toNat hn4 _

/-! ### Reads -/

/-- Settles O12: each of these events is a host read, which changes only what stands around the engine. -/
theorem readsHaveNoSideEffect : Obligations.ReadsHaveNoSideEffect := by
  intro s off e he
  have hread : ∃ n o, busEvent e s = hostRead n o s := by
    rcases he with rfl | rfl | rfl | rfl <;> exact ⟨_, _, rfl⟩
  obtain ⟨n, o, hread⟩ := hread
  rw [hread]
  exact ⟨rfl, rfl, rfl, rfl, rfl, rfl, rfl, rfl, rfl⟩

/-! ### While a command is pending -/

theorem step_of_not_due {s : State} (h : engineDue s = false) : step s = .next (hostStep s) := by
  simp [step, h]

theorem step_of_due {s : State} (h : engineDue s = true) :
    (∃ i, step s = exec i s) ∨ step s = .next (raiseError .illegalCmd s) := by
  simp only [step, h, if_true]
  split
  · exact .inl ⟨_, rfl⟩
  · exact .inr rfl

/-- From `s` to `t` the command pending in `s` stays pending: nothing it reads changed, its record is as it was, and no event
came into the list (70_reset R261, R262). -/
structure StaysPending (s t : State) : Prop where
  busy : t.status.busy = true
  done : t.status.done = s.status.done
  err : t.status.err = s.status.err
  cmd : t.cmd = s.cmd
  cfg : t.cfg = s.cfg
  strictY : t.strictY = s.strictY
  regs : t.regs = s.regs
  lanes : t.lanes = s.lanes
  buf : t.buf = s.buf
  resLen : t.resLen = s.resLen
  rng : t.env.rng = s.env.rng
  bus : ∀ e ∈ t.env.bus, e ∈ s.env.bus

theorem StaysPending.refl {s : State} (h : s.status.busy = true) : StaysPending s s :=
  ⟨h, rfl, rfl, rfl, rfl, rfl, rfl, rfl, rfl, rfl, rfl, fun _ he => he⟩

theorem StaysPending.trans {s t u : State} (h : StaysPending s t) (h' : StaysPending t u) : StaysPending s u :=
  ⟨h'.busy, h'.done.trans h.done, h'.err.trans h.err, h'.cmd.trans h.cmd, h'.cfg.trans h.cfg, h'.strictY.trans h.strictY,
    h'.regs.trans h.regs, h'.lanes.trans h.lanes, h'.buf.trans h.buf, h'.resLen.trans h.resLen, h'.rng.trans h.rng,
    fun e he => h.bus e (h'.bus e he)⟩

/-- A step before the completion is due, with no reset outstanding, lowers the delay and leaves the command pending. -/
theorem step_staysPending {s : State} (hb : s.status.busy = true) (hd : s.delay ≠ 0) (hr : .reset ∉ s.env.bus) :
    ∃ t, step s = .next t ∧ t.delay = s.delay - 1 ∧ StaysPending s t := by
  have hdue : engineDue s = false := by simp [engineDue, hd]
  obtain ⟨st, e, hstep, hbusy, hdone, herr, hrng, -, hbus⟩ := hostStep_busy hb fun h => hr (nextEvent_mem h)
  rw [step_of_not_due hdue, hstep]
  exact ⟨_, rfl, rfl, hbusy, hdone, herr, rfl, rfl, rfl, rfl, rfl, rfl, rfl, hrng, hbus⟩

/-- As many steps as the delay has left keep the command pending. -/
theorem runSteps_staysPending (n : Nat) {s : State} (hb : s.status.busy = true) (hn : n ≤ s.delay) (hr : .reset ∉ s.env.bus) :
    ∃ t, runSteps n s = .next t ∧ t.delay = s.delay - n ∧ StaysPending s t := by
  induction n generalizing s with
  | zero => exact ⟨s, rfl, rfl, .refl hb⟩
  | succ n ih =>
    obtain ⟨t, hstep, hdelay, hst⟩ := step_staysPending hb (by omega) hr
    obtain ⟨u, hrun, hdelay', htu⟩ := ih hst.busy (by omega) fun h => hr (hst.bus _ h)
    exact ⟨u, by simp [runSteps, hstep, hrun], by omega, hst.trans htu⟩

/-- Settles O6: by induction on the number of steps, `runSteps_staysPending`. -/
theorem pendingCommandSeesFixedInputs : Obligations.PendingCommandSeesFixedInputs := by
  intro n s hb hn hr
  obtain ⟨t, hrun, hdelay, h⟩ := runSteps_staysPending n hb hn hr
  exact ⟨t, hrun, h.busy, hdelay, h.cmd, h.cfg, h.strictY, h.regs, h.lanes, h.buf, h.resLen, h.done, h.err, h.rng⟩

/-! ### Stops -/

/-- A completion goes on, or stops at an unwritten byte inside BUF. -/
theorem exec_next_or_stopped (i : Instr) (s : State) :
    (∃ t, exec i s = .next t) ∨
    ∃ a, exec i s = .fault (.bufUnwritten a) ∧ a < s.cfg.bufBytes ∧ Memory.read s.buf a = none := by
  rcases exec_cases i s with ⟨-, he⟩ | ⟨-, he⟩
  · generalize exec i s = o at he ⊢
    cases he with
    | stopped a hnone ha => exact .inr ⟨a, rfl, ha, hnone⟩
    | _ => exact .inl ⟨_, rfl⟩
  · generalize exec i s = o at he ⊢
    cases he with
    | stopped a hnone ha => exact .inr ⟨a, rfl, ha, hnone⟩
    | _ => exact .inl ⟨_, rfl⟩

/-- A step goes on, or it is a due completion that stops at an unwritten byte inside BUF (20_memory R71). -/
theorem step_next_or_stopped (s : State) :
    (∃ t, step s = .next t) ∨
    (engineDue s = true ∧ ∃ a, step s = .fault (.bufUnwritten a) ∧ a < s.cfg.bufBytes ∧ Memory.read s.buf a = none) := by
  cases hd : engineDue s with
  | false => exact .inl ⟨_, step_of_not_due hd⟩
  | true =>
    rcases step_of_due hd with ⟨i, hi⟩ | hi
    · rw [hi]
      exact (exec_next_or_stopped i s).imp_right fun h => ⟨rfl, h⟩
    · exact .inl ⟨_, hi⟩

/-- Settles O24: `step_next_or_stopped`, where a due completion is one with BUSY = 1 and no delay left. -/
theorem stopsOnlyAtUnwrittenBytes : Obligations.StopsOnlyAtUnwrittenBytes := by
  intro s
  rcases step_next_or_stopped s with ⟨t, ht⟩ | ⟨hd, a, hf, ha, hnone⟩
  · simp [ht]
  · obtain ⟨hb, hdelay⟩ := engineDue_iff.1 hd
    rw [hf]
    exact ⟨nofun, fun f h => by cases h; exact ⟨hb, hdelay, a, rfl, ha, hnone⟩⟩

end Sys2Proof.Machine
end

section
/-! PROOFS. The statements of 30_encoding: the two fields of a command word, which words decode to which command, and what the
others do. -/

namespace Sys2Proof

/-! ### The fields of a command word -/

/-- A word is its two fields RSV and OPC (R90). -/
theorem rsvField_append_opcField (w : Word) : rsvField w ++ opcField w = w :=
  (BitVec.extractLsb'_append_extractLsb'_eq_extractLsb' rfl).trans BitVec.extractLsb'_eq_self

/-- Every command meets its encoding law, `Laws.Encoding`. -/
theorem encoding_statement (i : Instr) : Laws.Encoding.Statement i := by
  cases i with
  | clear => exact Laws.Encoding.clear
  | permute => exact Laws.Encoding.permute
  | pad => exact Laws.Encoding.pad
  | absorb => exact Laws.Encoding.absorb
  | squeeze => exact Laws.Encoding.squeeze
  | hash => exact Laws.Encoding.hash
  | mgf1 => exact Laws.Encoding.mgf1
  | oaepEnc => exact Laws.Encoding.oaepEnc
  | oaepDec => exact Laws.Encoding.oaepDec

@[simp] theorem Instr.wellFormed_eq_true (i : Instr) : i.wellFormed = true := by
  obtain ⟨hwf, -⟩ := encoding_statement i
  exact hwf

@[simp] theorem decode_encode (i : Instr) : decode (encode i) = .ok i := by
  obtain ⟨-, -, -, -, hdecode, -⟩ := encoding_statement i
  exact hdecode

/-- A word is a command's encoding iff no reserved bit is set and OPC is the command's opcode (R90, R91). -/
theorem eq_encode_iff {w : Word} {i : Instr} : w = encode i ↔ rsvField w = 0 ∧ opcField w = opcode i := by
  constructor
  · rintro rfl
    obtain ⟨-, hrsv, hopc, -⟩ := encoding_statement i
    exact ⟨hrsv, hopc⟩
  · rintro ⟨hrsv, hopc⟩
    rw [← rsvField_append_opcField w, hrsv, hopc]
    rfl

/-! ### The decoder -/

theorem decodeOpcode_eq_ok_iff {o : BitVec 8} {i : Instr} : decodeOpcode o = .ok i ↔ o = opcode i := by
  constructor
  · intro h
    unfold decodeOpcode at h
    split at h <;> cases h <;> rfl
  · rintro rfl
    cases i <;> rfl

theorem decode_eq_ok_iff {w : Word} {i : Instr} : decode w = .ok i ↔ w = encode i := by
  rw [eq_encode_iff, ← decodeOpcode_eq_ok_iff]
  by_cases hrsv : rsvField w = 0#24 <;> simp [decode, hrsv]

/-- The opcodes of R91 are the bytes 0x01-0x09; the others are reserved (R94). -/
theorem exists_opcode_iff {o : BitVec 8} : (∃ i, o = opcode i) ↔ 1 ≤ o.toNat ∧ o.toNat ≤ 9 := by
  constructor
  · rintro ⟨i, rfl⟩
    cases i <;> decide
  · rintro ⟨hlo, hhi⟩
    interval_cases h : o.toNat
    · exact ⟨.clear, BitVec.eq_of_toNat_eq h⟩
    · exact ⟨.permute, BitVec.eq_of_toNat_eq h⟩
    · exact ⟨.pad, BitVec.eq_of_toNat_eq h⟩
    · exact ⟨.absorb, BitVec.eq_of_toNat_eq h⟩
    · exact ⟨.squeeze, BitVec.eq_of_toNat_eq h⟩
    · exact ⟨.hash, BitVec.eq_of_toNat_eq h⟩
    · exact ⟨.mgf1, BitVec.eq_of_toNat_eq h⟩
    · exact ⟨.oaepEnc, BitVec.eq_of_toNat_eq h⟩
    · exact ⟨.oaepDec, BitVec.eq_of_toNat_eq h⟩

theorem commandWordWellFormed_iff {w : Word} :
    commandWordWellFormed w = true ↔ rsvField w = 0 ∧ 1 ≤ (opcField w).toNat ∧ (opcField w).toNat ≤ 9 := by
  simp [commandWordWellFormed, rsvField, opcField, and_assoc]

/-- The causes of R93 and R94. -/
theorem commandWordWellFormed_eq_false_iff {w : Word} :
    commandWordWellFormed w = false ↔ rsvField w ≠ 0 ∨ (opcField w).toNat = 0 ∨ 0x0A ≤ (opcField w).toNat := by
  rw [Bool.eq_false_iff, ne_eq, commandWordWellFormed_iff, not_and_or, not_and_or, not_le, not_le, Nat.lt_one_iff]
  rfl

/-- The well-formed words are the words the decoder accepts. -/
theorem exists_decode_iff {w : Word} : (∃ i, decode w = .ok i) ↔ commandWordWellFormed w = true := by
  simp only [decode_eq_ok_iff, eq_encode_iff, exists_and_left, exists_opcode_iff, commandWordWellFormed_iff]

end Sys2Proof

namespace Sys2Proof.Machine

/-- Settles O2: `decode_eq_ok_iff` and `exists_decode_iff`. -/
theorem decodeIffEncoded : Obligations.DecodeIffEncoded :=
  ⟨fun _ _ => decode_eq_ok_iff, fun _ => by simp only [Instr.wellFormed_eq_true, true_and, exists_decode_iff]⟩

/-- Settles O1: the nine words are the commands' encodings; the other five are evaluated. -/
theorem opcodeMapWordsDecode : Obligations.OpcodeMapWordsDecode :=
  ⟨decode_encode .clear, decode_encode .permute, decode_encode .pad, decode_encode .absorb, decode_encode .squeeze,
    decode_encode .hash, decode_encode .mgf1, decode_encode .oaepEnc, decode_encode .oaepDec,
    by decide, by decide, by decide, by decide, by decide⟩

/-! ### Illegal words -/

/-- `raiseError` ends a command with its error and does nothing else (60_exceptions R222). -/
theorem raisedOnly_raiseError (e : ErrCode) (s : State) : RaisedOnly e s (raiseError e s) :=
  ⟨⟨rfl, rfl⟩, rfl, rfl, ⟨rfl, rfl, rfl, rfl, rfl, rfl, rfl, rfl⟩, rfl⟩

/-- The completion of a word that names no command (60_exceptions R227). -/
theorem step_of_illegal {s : State} (hd : engineDue s = true) (hw : commandWordWellFormed s.cmd = false) :
    step s = .next (raiseError .illegalCmd s) := by
  cases hc : decode s.cmd with
  | ok i => simp [exists_decode_iff.1 ⟨i, hc⟩] at hw
  | error _ => simp [step, hd, hc]

/-- ILLEGAL_CMD is no command's error. -/
theorem exec_err_ne_illegalCmd {i : Instr} {s t : State} (h : exec i s = .next t) : t.status.err ≠ .illegalCmd := by
  rcases exec_cases i s with ⟨-, he⟩ | ⟨-, he⟩
  · rw [h] at he
    cases he with
    | raised e he => exact he.2
    | written L => simp
  · rw [h] at he
    cases he with
    | raised e he => exact he.2
    | late => simp
    | written out hr => simp

/-- Settles O3: `commandWordWellFormed_eq_false_iff` and `step_of_illegal`; `exec_err_ne_illegalCmd`. -/
theorem illegalWordsComplete : Obligations.IllegalWordsComplete := by
  refine ⟨fun s hb hd hcause => ?_, fun _ _ _ => exec_err_ne_illegalCmd⟩
  have hw : commandWordWellFormed s.cmd = false := commandWordWellFormed_eq_false_iff.2 hcause
  exact ⟨_, step_of_illegal (engineDue_iff.2 ⟨hb, hd⟩) hw, raisedOnly_raiseError _ s⟩

end Sys2Proof.Machine
end

section
/-! PROOFS. The statements of 40_permutation: what each of the five steps puts at (x, y), the rounds in order, and the commands
CLEAR and PERMUTE. -/

namespace Sys2Proof.Machine

/-! ### Lanes by coordinates -/

@[simp] theorem laneAt_mod_left (A : Lanes) (x y : Nat) : laneAt A (x % 5) y = laneAt A x y := by
  simp [laneAt]

@[simp] theorem laneAt_mod_right (A : Lanes) (x y : Nat) : laneAt A x (y % 5) = laneAt A x y := by
  simp [laneAt]

@[simp] theorem laneAt_mod_add (A : Lanes) (x n y : Nat) : laneAt A (x % 5 + n) y = laneAt A (x + n) y := by
  simp [laneAt]

@[simp] theorem laneAt_zeroLanes (x y : Nat) : laneAt zeroLanes x y = 0 := by
  simp [laneAt, zeroLanes]

/-! ### theta (40_permutation R113) -/

/-- `C[x]` of theta, with x taken mod 5. -/
def columnParity (A : Lanes) (x : Nat) : Lane :=
  laneAt A x 0 ^^^ laneAt A x 1 ^^^ laneAt A x 2 ^^^ laneAt A x 3 ^^^ laneAt A x 4

@[simp] theorem columnParity_mod (A : Lanes) (x : Nat) : columnParity A (x % 5) = columnParity A x := by
  simp [columnParity]

@[simp] theorem columnParity_mod_add (A : Lanes) (x n : Nat) : columnParity A (x % 5 + n) = columnParity A (x + n) := by
  simp [columnParity]

@[simp] theorem columnParity_zeroLanes (x : Nat) : columnParity zeroLanes x = 0 := by
  simp [columnParity]

theorem getElem_thetaC (A : Lanes) (x : Nat) (h : x < 5) : (thetaC A)[x] = columnParity A x := by
  simp [thetaC, columnParity]

@[simp] theorem rol64_zero (n : Nat) : rol64 0#64 n = 0#64 := by
  simp [rol64, BitVec.rotateLeft, BitVec.rotateLeftAux]

theorem laneAt_theta (c : Config) (A : Lanes) (x y : Nat) : laneAt (theta c A) x y = laneAt A x y ^^^
    (columnParity A (x + 4) ^^^ if c.thetaRot1 then rol64 (columnParity A (x + 1)) 1 else columnParity A (x + 1)) := by
  simp [theta, thetaD, thetaE, getElem_thetaC]

theorem theta_zeroLanes (c : Config) : theta c zeroLanes = zeroLanes :=
  lanes_ext fun x _ y _ => by simp [laneAt_theta]

/-- States that agree in bit b of every lane agree in bit b of every column parity. -/
theorem columnParity_getLsbD_congr {A B : Lanes} {b : Nat}
    (h : ∀ x y, (laneAt A x y).getLsbD b = (laneAt B x y).getLsbD b) (x : Nat) :
    (columnParity A x).getLsbD b = (columnParity B x).getLsbD b := by
  simp only [columnParity, BitVec.getLsbD_xor, h]

/-- Without the rotation, states that agree in bit b of every lane still do after theta. -/
theorem laneAt_theta_getLsbD_congr {c : Config} (hc : c.thetaRot1 = false) {A B : Lanes} {b : Nat}
    (h : ∀ x y, (laneAt A x y).getLsbD b = (laneAt B x y).getLsbD b) (x y : Nat) :
    (laneAt (theta c A) x y).getLsbD b = (laneAt (theta c B) x y).getLsbD b := by
  simp [laneAt_theta, hc, h, columnParity_getLsbD_congr h]

/-- Settles O35: `laneAt_theta`, `theta_zeroLanes` and `laneAt_theta_getLsbD_congr`. -/
theorem thetaMixesColumns : Obligations.ThetaMixesColumns := by
  refine fun c => ⟨fun A x y _ _ => ?_, theta_zeroLanes c, fun hc A B b hAB j => ?_⟩
  · have h := laneAt_theta c A x y
    rw [← columnParity_mod A (x + 4), ← columnParity_mod A (x + 1)] at h
    exact h
  · have hlane : ∀ x y, (laneAt A x y).getLsbD b = (laneAt B x y).getLsbD b := fun x y =>
      hAB ⟨x % 5 + 5 * (y % 5), by omega⟩
    have := laneAt_theta_getLsbD_congr hc hlane (j.val % 5) (j.val / 5)
    rwa [← getElem_eq_laneAt _ _ j.isLt, ← getElem_eq_laneAt _ _ j.isLt] at this

/-! ### rho (40_permutation R114) -/

theorem rot_mod (c : Config) (x y : Nat) : rot c (x % 5) (y % 5) = rot c x y := by
  cases h : c.rhoTable <;> simp [rot, rotEntry, h]

theorem laneAt_rho (c : Config) (A : Lanes) (x y : Nat) : laneAt (rho c A) x y = rol64 (laneAt A x y) (rot c x y) := by
  simp [rho, rot_mod]

/-- The formula of 00_scope R11. -/
theorem rol64_eq (v : Lane) (n : Nat) :
    rol64 v n = if n % 64 = 0 then v else (v <<< (n % 64)) ||| (v >>> (64 - n % 64)) := by
  rw [rol64, BitVec.rotateLeft_def]
  split
  · next h => rw [h, BitVec.ushiftRight_eq_zero (Nat.le_refl 64), BitVec.shiftLeft_zero, BitVec.or_zero]
  · rfl

/-- `T[x][y]` from the rows of R111 written as lists. -/
theorem rotEntry_eq_getD : ∀ x y : Fin 5, rotEntry x y =
    ([[0, 1, 62, 28, 27], [36, 44, 6, 55, 20], [3, 10, 43, 25, 39], [41, 45, 15, 21, 8], [18, 2, 61, 56, 14]].getD x []).getD
      y 0 := by
  decide

/-- Settles O36: `laneAt_rho` with `rotEntry_eq_getD` in either orientation; `rol64_eq`. -/
theorem rhoRotatesByTheTable : Obligations.RhoRotatesByTheTable := by
  refine ⟨fun c A x y hx hy => ?_, rol64_eq⟩
  rw [laneAt_rho]
  cases h : c.rhoTable with
  | docXY => simpa [rot, h] using congrArg (rol64 _) (rotEntry_eq_getD ⟨x, hx⟩ ⟨y, hy⟩)
  | transposed => simpa [rot, h] using congrArg (rol64 _) (rotEntry_eq_getD ⟨y, hy⟩ ⟨x, hx⟩)

/-! ### pi (40_permutation R115) -/

theorem laneAt_piStep (A : Lanes) (u v : Nat) : laneAt (piStep A) u v = laneAt A (u + 3 * v) u := by
  rw [piStep, laneAt_ofXY, laneAt_mod_right, ← laneAt_mod_left, ← laneAt_mod_left A (u + 3 * v)]
  congr 1
  omega

/-- Settles O37: the source lane of the target `(y, 2x + 3y)` is at `x`, since `y + 3 * (2x + 3y) = x` mod 5. -/
theorem piMovesEveryLane : Obligations.PiMovesEveryLane := by
  refine ⟨fun A x y hx hy => ?_, fun x y x' y' _ _ _ _ h => ?_, fun A => laneAt_piStep A 0 0⟩
  · have hsource : (y + 3 * ((2 * x + 3 * y) % 5)) % 5 = x := by omega
    rw [laneAt_piStep, ← laneAt_mod_left, hsource]
  · have hy : y = y' := by omega
    exact ⟨by omega, hy⟩

/-! ### chi (40_permutation R116) -/

theorem laneAt_chi (A : Lanes) (x y : Nat) :
    laneAt (chi A) x y = laneAt A x y ^^^ (~~~laneAt A (x + 1) y &&& laneAt A (x + 2) y) := by
  simp [chi]

/-- Settles O38: `laneAt_chi`. -/
theorem chiCombinesRows : Obligations.ChiCombinesRows := by
  refine ⟨fun A x y _ _ => ?_, lanes_ext fun x _ y _ => by simp [laneAt_chi]⟩
  rw [laneAt_chi, laneAt_mod_left, laneAt_mod_left]

/-! ### iota (40_permutation R117) -/

/-- Settles O39: iota is one `Vector.set` at lane 0. -/
theorem iotaTouchesLaneZero : Obligations.IotaTouchesLaneZero := by
  refine fun c r A => ⟨Vector.getElem_set_self _, fun j hj => ?_⟩
  have hne : 0 ≠ j.val := fun h => hj (Fin.ext h.symm)
  exact Vector.getElem_set_ne _ _ hne

/-! ### The rounds (40_permutation R118, R119) -/

/-- A sequence whose steps are those of a fold over `0, 1, ..., n - 1` ends in the fold. -/
theorem foldl_finRange_eq {α : Type} (n : Nat) (f : α → Fin n → α) (g : Nat → α)
    (h : ∀ r : Fin n, g (r.val + 1) = f (g r.val) r) : (List.finRange n).foldl f (g 0) = g n := by
  induction n with
  | zero => simp
  | succ n ih =>
    have hinit := ih (fun a r => f a r.castSucc) fun r => h r.castSucc
    rw [List.finRange_succ_last, List.foldl_append, List.foldl_map, hinit]
    exact (h (Fin.last n)).symm

/-- Settles O40: the permutation is a fold of the rounds, `foldl_finRange_eq`. -/
theorem permutationRunsTheRoundsInOrder : Obligations.PermutationRunsTheRoundsInOrder := by
  rintro c _ g rfl hround
  exact foldl_finRange_eq 24 (keccakRound c) g hround

/-- Settles O41: evaluated on the quick form of P, `keccakP_eq_flat`. -/
theorem permutationOfTheZeroState : Obligations.PermutationOfTheZeroState := by
  simp only [Obligations.PermutationOfTheZeroState, keccakP_eq_flat]
  decide +kernel

/-! ### CLEAR and PERMUTE (40_permutation R121, R122) -/

/-- A completion that writes the lane file records its success and changes nothing else. -/
theorem finish_lanes_frame (L : Lanes) (s : State) :
    Recorded .none 0 s (finish 0 { s with lanes := L }) ∧ (finish 0 { s with lanes := L }).buf = s.buf ∧
      KeepsRegisters s (finish 0 { s with lanes := L }) ∧ (finish 0 { s with lanes := L }).env = s.env :=
  ⟨⟨rfl, rfl⟩, rfl, keepsRegisters_refl s, rfl⟩

/-- Settles O33: CLEAR ends by `finish 0` with the zero lanes. -/
theorem clearZeroesEveryLane : Obligations.ClearZeroesEveryLane := by
  have hlane (j : Fin 25) : zeroLanes[j] = 0 := Vector.getElem_replicate j.isLt
  exact ⟨decode_encode .clear, fun s => ⟨_, rfl, hlane, finish_lanes_frame _ s⟩⟩

/-- Settles O34: PERMUTE ends by `finish 0` with P of the lanes. -/
theorem permuteAppliesThePermutation : Obligations.PermuteAppliesThePermutation :=
  ⟨decode_encode .permute, fun s => ⟨_, rfl, rfl, finish_lanes_frame _ s⟩⟩

end Sys2Proof.Machine
end

section
/-! PROOFS. The statements of 41_padding: the padding bytes for each q, the padding laws, and the command PAD. -/

namespace Sys2Proof.Machine

/-! ### The padding bytes (41_padding R140) -/

theorem padBytes_one : padBytes 1 = [0x86] := rfl

theorem padBytes_two : padBytes 2 = [0x06, 0x80] := rfl

theorem padBytes_of_three_le {q : Nat} (h : 3 ≤ q) :
    padBytes q = [0x06] ++ List.replicate (q - 2) 0x00 ++ [0x80] := by
  have h1 : q ≠ 1 := by omega
  have h2 : q ≠ 2 := by omega
  simp [padBytes, h1, h2]

/-- Settles O42: `padCount_bounds`, and one equation of `padBytes` for each case of q. -/
theorem paddingBytesByCount : Obligations.PaddingBytesByCount := by
  intro m R hR
  obtain ⟨hlo, hhi⟩ := padCount_bounds m.length hR
  have hpad : padMsg m R = m ++ padBytes (R - m.length % R) := rfl
  refine ⟨hlo, hhi, fun h => ?_, fun h => ?_, fun h => ?_⟩
  · rw [hpad, h, padBytes_one]
  · rw [hpad, h, padBytes_two]
  · rw [hpad, padBytes_of_three_le h, ← List.append_assoc, ← List.append_assoc]

/-! ### The padding laws (41_padding R142) -/

/-- The padding fills up the last, incomplete block of the message. -/
theorem length_add_padCount (len : Nat) {rate : Nat} (h : 1 ≤ rate) :
    len + padCount len rate = rate * (len / rate + 1) := by
  have hdiv := Nat.div_add_mod len rate
  have hlt := Nat.mod_lt len h
  rw [padCount, Nat.mul_succ]
  omega

/-- Settles O43: `length_add_padCount` and `padCount_bounds`, for the length that `padMsg_length` gives. -/
theorem paddingLaws : Obligations.PaddingLaws := by
  intro m R hR
  obtain ⟨hlo, hhi⟩ := padCount_bounds m.length hR
  have hlen := padMsg_length m hR
  refine ⟨?_, by omega, by omega, List.take_left⟩
  rw [hlen, length_add_padCount m.length hR, Nat.mul_mod_right]

/-! ### PAD (41_padding R141) -/

/-- The end of every command that has written its output at DST_ADDR: the record, the bytes of its region, and what stays. -/
theorem delivered_frame (s : State) (out : List Byte) :
    Recorded .none out.length s (delivered s out.length out) ∧
    HoldsAt s.regs.dstAddr.toNat out (delivered s out.length out) ∧
    KeepsBufOutside s.regs.dstAddr.toNat out.length s (delivered s out.length out) ∧
    (delivered s out.length out).lanes = s.lanes ∧ KeepsRegisters s (delivered s out.length out) ∧
    (delivered s out.length out).env = s.env := by
  refine ⟨⟨rfl, rfl⟩, fun i hi => ?_, fun x hx => ?_, rfl, keepsRegisters_refl s, rfl⟩
  · rw [delivered_buf, Memory.read_writeBytes_inside _ _ _ hi, List.getElem?_eq_getElem hi]
  · rw [delivered_buf, Memory.read_writeBytes_outside _ _ _ hx]

/-- With a legal rate and a written source region in range, PAD is its last line: the output to DST_ADDR. -/
theorem execPad_of_ok {s : State} {m : List Byte} (hrate : validRate s.regs.rateBits = true)
    (hsrc : inRange s.cfg s.regs.srcAddr s.regs.srcLen.toNat = true)
    (hm : Memory.readBytes s.buf s.regs.srcAddr.toNat s.regs.srcLen.toNat = .ok m) :
    execPad s = deliver s (padMsg m (rateBytes s)).length (padMsg m (rateBytes s)) := by
  simp [execPad, hrate, hsrc, withBytes_of_ok _ hm]

/-- Settles O44: PAD passes its checks, `execPad_of_ok`, and delivers the padded message, `delivered_frame`. -/
theorem padWritesThePaddedMessage : Obligations.PadWritesThePaddedMessage := by
  intro s m hrate hsrc hm hdst
  have hexec : exec .pad s = .next (delivered s (padMsg m (rateBytes s)).length (padMsg m (rateBytes s))) :=
    (execPad_of_ok (validRate_iff.2 hrate) (inRange_iff.2 hsrc) hm).trans (deliver_of_inRange _ (inRange_iff.2 hdst))
  exact ⟨_, hexec, delivered_frame s _⟩

end Sys2Proof.Machine
end

section
/-! PROOFS. The statements of 42_sponge: absorb block by block and byte by byte, the squeeze bytes, and the commands ABSORB and
SQUEEZE. -/

namespace Sys2Proof.Machine

/-! ### Absorbing block by block (42_sponge R150) -/

/-- Absorbing `n` blocks and one more: the last block meets the state that the blocks before it left. -/
theorem absorbBlocks_append (c : Config) (P : Lanes → Lanes) {rate n : Nat} {Pm blk : List Byte} (A : Lanes)
    (hPm : Pm.length = n * rate) (hblk : blk.length = rate) :
    absorbBlocks c P rate (n + 1) (Pm ++ blk) A = P (xorBytes c 0 blk (absorbBlocks c P rate n Pm A)) := by
  induction n generalizing Pm A with
  | zero =>
    obtain rfl : Pm = [] := List.length_eq_zero_iff.1 (by simpa using hPm)
    simp [absorbBlocks, ← hblk]
  | succ n ih =>
    rw [Nat.succ_mul] at hPm
    have hle : rate ≤ Pm.length := by omega
    rw [absorbBlocks, List.take_append_of_le_length hle, List.drop_append_of_le_length hle,
      ih _ (by rw [List.length_drop]; omega), absorbBlocks]

/-- Settles O45: a string of n whole blocks and one more has n + 1 blocks, and `absorbBlocks_append` takes the last one off. -/
theorem absorbTakesBlocksInOrder : Obligations.AbsorbTakesBlocksInOrder := by
  intro c Pm blk R hR hPm hblk
  have hlen : Pm.length = Pm.length / R * R := (Nat.div_mul_cancel (Nat.dvd_of_mod_eq_zero hPm)).symm
  have hcount : (Pm ++ blk).length / R = Pm.length / R + 1 := by
    rw [List.length_append, hblk, Nat.add_div_right _ hR]
  refine ⟨by simp [absorb, absorbBlocks], ?_⟩
  rw [absorb, hcount, absorbBlocks_append c _ _ hlen hblk, absorb]

/-! ### Where an absorbed byte lands (42_sponge R150) -/

theorem absorbShift_eq (c : Config) (i : Nat) :
    absorbShift c i = if c.absorbShift = .zero then 0 else 8 * (i / 25) := by
  cases h : c.absorbShift <;> simp [absorbShift, h]

/-- The byte at position `i` of a block reaches lane `i mod 25` only. -/
theorem getElem_xorByte (c : Config) (i : Nat) (b : Byte) (A : Lanes) (j : Fin 25) :
    (xorByte c i b A)[j] = if i % 25 = j.val then A[j] ^^^ (b.setWidth 64 <<< absorbShift c i) else A[j] := by
  simp only [xorByte, Fin.getElem_fin, Vector.getElem_set]
  split
  · next h => simp only [h]
  · rfl

/-- Lane j after a string of bytes from position `i` on: the bytes at positions congruent to j mod 25, XORed in one by one. -/
theorem getElem_xorBytes (c : Config) (i : Nat) (blk : List Byte) (A : Lanes) (j : Fin 25) :
    (xorBytes c i blk A)[j] =
      ((List.range blk.length).filter fun k => decide ((i + k) % 25 = j.val)).foldl
        (fun l k => l ^^^ ((blk.getD k 0).setWidth 64 <<< absorbShift c (i + k))) A[j] := by
  induction blk generalizing i A with
  | nil => rfl
  | cons b rest ih =>
    have hpos (k : Nat) : i + k + 1 = i + 1 + k := Nat.add_right_comm i k 1
    rw [xorBytes, ih, getElem_xorByte, List.length_cons, List.range_succ_eq_map, List.filter_cons, List.filter_map]
    by_cases h : i % 25 = j.val <;>
      simp [h, List.foldl_map, Function.comp_def, ← Nat.add_assoc, hpos]

/-- Settles O46: `getElem_xorBytes` from position 0 on. -/
theorem absorbedBytesLandByPosition : Obligations.AbsorbedBytesLandByPosition := by
  intro c blk A j
  simp only [getElem_xorBytes, Nat.zero_add, absorbShift_eq]

/-! ### The squeeze bytes (42_sponge R151) -/

theorem getElem?_squeeze (A : Lanes) {n i : Nat} (h : i < n) : (squeeze A n)[i]? = some (squeezeByte A i) := by
  simp [squeeze, h]

/-- For i below 200 there is a lane `i div 8`, so its byte is never the default of the lookup. -/
theorem squeezeByte_eq (A : Lanes) {i : Nat} (h : i < 200) :
    squeezeByte A i = (laneAt A (i / 8 % 5) (i / 8 / 5)).extractLsb' (8 * (i % 8)) 8 := by
  have hlane : A.toList.getD (i / 8) 0 = A[i / 8] := by
    rw [List.getD_eq_getElem _ _ (by simp; omega), Vector.getElem_toList]
  rw [squeezeByte, hlane, getElem_eq_laneAt, BitVec.setWidth_ushiftRight_eq_extractLsb]

/-- Settles O48: `squeeze_length`, and each byte by `squeezeByte_eq`. -/
theorem squeezeBytes : Obligations.SqueezeBytes := by
  intro A n hn
  refine ⟨squeeze_length A n, fun i hi => ?_⟩
  rw [getElem?_squeeze A hi, squeezeByte_eq A (by omega)]

/-! ### SQUEEZE (42_sponge R153) -/

/-- With a legal output, SQUEEZE is its last line: the squeezed bytes to DST_ADDR. -/
theorem execSqueeze_of_ok {s : State} (hout : validOut s.regs.outBits = true) :
    execSqueeze s = deliver s (outBytes s) (squeeze s.lanes (outBytes s)) := by
  simp [execSqueeze, hout]

/-- Settles O49: SQUEEZE passes its check, `execSqueeze_of_ok`, and delivers the squeezed bytes, `delivered_frame`. -/
theorem squeezeWritesTheLaneBytes : Obligations.SqueezeWritesTheLaneBytes := by
  intro s hout hdst
  have hexec : exec .squeeze s = .next (delivered s (outBytes s) (squeeze s.lanes (outBytes s))) :=
    (execSqueeze_of_ok (validOut_iff.2 hout)).trans (deliver_of_inRange _ (inRange_iff.2 hdst))
  have hframe := delivered_frame s (squeeze s.lanes (outBytes s))
  rw [squeeze_length] at hframe
  exact ⟨_, hexec, hframe⟩

/-! ### ABSORB (42_sponge R152) -/

/-- With a legal rate and a written source region of whole blocks in range, ABSORB replaces the lanes and finishes. -/
theorem execAbsorb_of_ok {s : State} {Pm : List Byte} (hrate : validRate s.regs.rateBits = true)
    (hblocks : s.regs.srcLen.toNat % rateBytes s = 0)
    (hsrc : inRange s.cfg s.regs.srcAddr s.regs.srcLen.toNat = true)
    (hPm : Memory.readBytes s.buf s.regs.srcAddr.toNat s.regs.srcLen.toNat = .ok Pm) :
    execAbsorb s = .next (finish 0 { s with lanes := absorb s.cfg Pm (rateBytes s) }) := by
  simp [execAbsorb, hrate, hblocks, hsrc, withBytes_of_ok _ hPm]

/-- Settles O47: ABSORB passes its checks, `execAbsorb_of_ok`, and ends by `finish 0` with the absorbed lanes. -/
theorem absorbReplacesTheLaneFile : Obligations.AbsorbReplacesTheLaneFile := by
  intro s Pm hrate hblocks hsrc hPm
  exact ⟨_, execAbsorb_of_ok (validRate_iff.2 hrate) hblocks (inRange_iff.2 hsrc) hPm, rfl, finish_lanes_frame _ s⟩

end Sys2Proof.Machine
end

section
/-! PROOFS. The statements of 43_hash: the command HASH, the four commands that together write what it writes, and that its
digest depends only on its message, rate and output. -/

namespace Sys2Proof.Machine

/-! ### HASH (43_hash R171) -/

/-- The bytes that HASH writes (43_hash R170). -/
def digestOf (s : State) (m : List Byte) : List Byte := hashMsg s.cfg m s.regs.rateBits.toNat s.regs.outBits.toNat

theorem digestOf_length (s : State) (m : List Byte) : (digestOf s m).length = outBytes s := hashMsg_length ..

/-- With legal rate and output, a written source region and an output region in range, HASH delivers the digest. -/
theorem execHash_of_ok {s : State} {m : List Byte} (hrate : validRate s.regs.rateBits = true)
    (hout : validOut s.regs.outBits = true)
    (hsrc : inRange s.cfg s.regs.srcAddr s.regs.srcLen.toNat = true)
    (hm : Memory.readBytes s.buf s.regs.srcAddr.toNat s.regs.srcLen.toNat = .ok m)
    (hdst : inRange s.cfg s.regs.dstAddr (outBytes s) = true) :
    execHash s = .next (delivered s (outBytes s) (digestOf s m)) := by
  simp [execHash, hrate, hout, hsrc, withBytes_of_ok _ hm, deliver_of_inRange _ hdst, digestOf]

/-- A padded message is one block more than the whole blocks of the message (43_hash R170). -/
theorem padMsg_length_div (m : List Byte) {rate : Nat} (h : 1 ≤ rate) :
    (padMsg m rate).length / rate = m.length / rate + 1 := by
  rw [padMsg_length m h, length_add_padCount m.length h, Nat.mul_div_cancel_left _ h]

/-- Settles O50: HASH passes its checks and delivers the digest, `execHash_of_ok` and `delivered_frame`. -/
theorem hashWritesTheDigest : Obligations.HashWritesTheDigest := by
  intro s m hrate hout hsrc hm hdst
  have hvalid := validRate_iff.2 hrate
  have hexec := execHash_of_ok hvalid (validOut_iff.2 hout) (inRange_iff.2 hsrc) hm (inRange_iff.2 hdst)
  have hframe := delivered_frame s (digestOf s m)
  rw [digestOf_length] at hframe
  obtain ⟨hrec, hholds, hbuf, hlanes, hregs, henv⟩ := hframe
  exact ⟨_, hexec, hrec, hholds, digestOf_length s m, hbuf, hlanes, hregs, henv,
    padMsg_length_div m (rateBytes_bounds hvalid).1⟩

/-! ### Commands that succeed -/

section
variable {s t : State}

/-- A command that ends without an error has passed each of its checks. -/
theorem check_passed {p : Prop} [Decidable p] {e : ErrCode} {o : Host.Outcome State Fault Refusal}
    (h : (if p then .next (raiseError e s) else o) = .next t) (ht : t.status.err = .none) (he : e ≠ .none) :
    ¬ p ∧ o = .next t := by
  split at h
  · cases h
    exact absurd ht he
  · next hp => exact ⟨hp, h⟩

/-- A command that goes on after an input region has read the bytes of that region. -/
theorem withBytes_next {a : Word} {n : Nat} {k : List Byte → Host.Outcome State Fault Refusal}
    (h : withBytes s a n k = .next t) : ∃ bs, Memory.readBytes s.buf a.toNat n = .ok bs ∧ k bs = .next t := by
  rcases withBytes_cases s a n k with ⟨bs, hbs, -, hk⟩ | ⟨e, -, -, -, hk⟩
  · exact ⟨bs, hbs, hk ▸ h⟩
  · rw [hk] at h
    cases h

/-- A command that ends without an error after its output has written all of it. -/
theorem deliver_succeeded {n : Nat} {out : List Byte} (h : deliver s n out = .next t) (ht : t.status.err = .none) :
    inRange s.cfg s.regs.dstAddr n = true ∧ t = delivered s n out := by
  obtain ⟨hdst, h⟩ := check_passed h ht (by decide)
  cases h
  exact ⟨by simpa using hdst, rfl⟩

theorem execPad_succeeded (h : execPad s = .next t) (ht : t.status.err = .none) :
    validRate s.regs.rateBits = true ∧ inRange s.cfg s.regs.srcAddr s.regs.srcLen.toNat = true ∧
    ∃ m, Memory.readBytes s.buf s.regs.srcAddr.toNat s.regs.srcLen.toNat = .ok m ∧
      inRange s.cfg s.regs.dstAddr (padMsg m (rateBytes s)).length = true ∧
      t = delivered s (padMsg m (rateBytes s)).length (padMsg m (rateBytes s)) := by
  obtain ⟨hrate, h⟩ := check_passed h ht (by decide)
  obtain ⟨hsrc, h⟩ := check_passed h ht (by decide)
  obtain ⟨m, hm, h⟩ := withBytes_next h
  exact ⟨by simpa using hrate, by simpa using hsrc, m, hm, deliver_succeeded h ht⟩

theorem execAbsorb_succeeded (h : execAbsorb s = .next t) (ht : t.status.err = .none) :
    ∃ Pm, Memory.readBytes s.buf s.regs.srcAddr.toNat s.regs.srcLen.toNat = .ok Pm ∧
      t = finish 0 { s with lanes := absorb s.cfg Pm (rateBytes s) } := by
  obtain ⟨-, h⟩ := check_passed h ht (by decide)
  obtain ⟨-, h⟩ := check_passed h ht (by decide)
  obtain ⟨-, h⟩ := check_passed h ht (by decide)
  obtain ⟨Pm, hPm, h⟩ := withBytes_next h
  cases h
  exact ⟨Pm, hPm, rfl⟩

theorem execSqueeze_succeeded (h : execSqueeze s = .next t) (ht : t.status.err = .none) :
    validOut s.regs.outBits = true ∧ inRange s.cfg s.regs.dstAddr (outBytes s) = true ∧
      t = delivered s (outBytes s) (squeeze s.lanes (outBytes s)) := by
  obtain ⟨hout, h⟩ := check_passed h ht (by decide)
  exact ⟨by simpa using hout, deliver_succeeded h ht⟩

theorem execHash_succeeded (h : execHash s = .next t) (ht : t.status.err = .none) :
    ∃ m, Memory.readBytes s.buf s.regs.srcAddr.toNat s.regs.srcLen.toNat = .ok m ∧
      t = delivered s (outBytes s) (digestOf s m) := by
  obtain ⟨-, h⟩ := check_passed h ht (by decide)
  obtain ⟨-, h⟩ := check_passed h ht (by decide)
  obtain ⟨-, h⟩ := check_passed h ht (by decide)
  obtain ⟨m, hm, h⟩ := withBytes_next h
  exact ⟨m, hm, (deliver_succeeded h ht).2⟩

end

/-! ### The sponge decomposition (43_hash R172) -/

theorem delivered_holdsAt (s : State) (n : Nat) (out : List Byte) : HoldsAt s.regs.dstAddr.toNat out (delivered s n out) := by
  intro i hi
  rw [delivered_buf, Memory.read_writeBytes_inside _ _ _ hi, List.getElem?_eq_getElem hi]

/-- ABSORB from where PAD has written, and as long as PAD has recorded, absorbs the padded message. -/
theorem execAbsorb_after_execPad {s s1 s2 : State} {q : Word} (hc : s.cfg.wellFormed = true)
    (hpad : execPad { s with regs := { s.regs with dstAddr := q } } = .next s1) (hs1 : s1.status.err = .none)
    (habsorb : execAbsorb { s1 with regs := { s1.regs with srcAddr := q, srcLen := s1.resLen } } = .next s2)
    (hs2 : s2.status.err = .none) :
    ∃ m, Memory.readBytes s.buf s.regs.srcAddr.toNat s.regs.srcLen.toNat = .ok m ∧
      HoldsAt q.toNat (padMsg m (rateBytes s)) s1 ∧ s2.lanes = absorb s.cfg (padMsg m (rateBytes s)) (rateBytes s) ∧
      s2.cfg = s.cfg ∧ s2.regs.outBits = s.regs.outBits := by
  obtain ⟨-, -, m, hm, hq, rfl⟩ := execPad_succeeded hpad hs1
  obtain ⟨Pm, hPm, rfl⟩ := execAbsorb_succeeded habsorb hs2
  have hlen := toNat_ofNat_of_le_bufBytes hc (Nat.le_trans (Nat.le_add_left ..) (inRange_iff.1 hq))
  simp only [delivered_buf, delivered_resLen, hlen, Memory.readBytes_writeBytes, Except.ok.injEq] at hPm
  subst hPm
  exact ⟨m, hm, delivered_holdsAt _ _ _, rfl, rfl, rfl⟩

/-- SQUEEZE after PERMUTE delivers the bytes of the permuted lanes. -/
theorem execSqueeze_after_execPermute {s s1 s2 : State} {d : Word} (hpermute : execPermute s = .next s1)
    (hsqueeze : execSqueeze { s1 with regs := { s1.regs with dstAddr := d } } = .next s2) (hs2 : s2.status.err = .none) :
    validOut s.regs.outBits = true ∧ inRange s.cfg d (outBytes s) = true ∧
      HoldsAt d.toNat (squeeze (keccakP s.cfg s.lanes) (outBytes s)) s2 ∧
      s2.resLen = BitVec.ofNat 32 (outBytes s) ∧ s2.lanes = keccakP s.cfg s.lanes := by
  cases hpermute
  -- P is not to be evaluated where states are compared.
  generalize keccakP s.cfg s.lanes = A at *
  obtain ⟨hout, hd, rfl⟩ := execSqueeze_succeeded hsqueeze hs2
  exact ⟨hout, hd, delivered_holdsAt _ _ _, rfl, rfl⟩

/-- Settles O51: the success of PAD and SQUEEZE gives what HASH checks, `execHash_of_ok`; and SQUEEZE delivers the digest, since
the lanes come from the padded message, `execAbsorb_after_execPad` and `execSqueeze_after_execPermute`. -/
theorem hashIsItsSpongeDecomposition : Obligations.HashIsItsSpongeDecomposition := by
  intro s s1 s2 s3 s4 q d hc hpad hs1 habsorb hs2 hpermute hsqueeze hs4
  obtain ⟨hrate, hsrc, -⟩ := execPad_succeeded hpad hs1
  obtain ⟨m, hm, hpadded, hlanes, hcfg, hbits⟩ := execAbsorb_after_execPad hc hpad hs1 habsorb hs2
  obtain ⟨hout, hd, hsqueezed, hlen, hs4_lanes⟩ := execSqueeze_after_execPermute hpermute hsqueeze hs4
  simp only [hcfg, hlanes, hbits, outBytes] at hout hd hsqueezed hlen hs4_lanes
  have hhash := execHash_of_ok (s := { s with regs := { s.regs with dstAddr := d } }) hrate hout hsrc hm hd
  refine ⟨_, m, hhash, rfl, hm, hpadded, fun i hi => ?_, hlen, rfl, hs4_lanes⟩
  have hlt : i < (digestOf s m).length := (digestOf_length s m).symm ▸ hi
  exact (hsqueezed i hlt).trans (delivered_holdsAt _ _ _ i hlt).symm

/-! ### Determinism (43_hash R173) -/

/-- Settles O52: either command delivers the digest of the message under its parameters, rate and output. -/
theorem hashDependsOnlyOnItsMessage : Obligations.HashDependsOnlyOnItsMessage := by
  intro s s' t t' m hcfg hrate hout hm hm' h ht h' ht'
  obtain ⟨_, hr, rfl⟩ := execHash_succeeded h ht
  obtain ⟨_, hr', rfl⟩ := execHash_succeeded h' ht'
  cases hm.symm.trans hr
  cases hm'.symm.trans hr'
  have hn : outBytes s' = outBytes s := by simp only [outBytes, hout]
  have hdigest : digestOf s' m = digestOf s m := by simp only [digestOf, hcfg, hrate, hout]
  rw [hn, hdigest]
  refine ⟨rfl, fun i hi => ?_⟩
  have hlt : i < (digestOf s m).length := (digestOf_length s m).symm ▸ hi
  rw [delivered_holdsAt s' _ _ i hlt, delivered_holdsAt s _ _ i hlt]

end Sys2Proof.Machine
end

section
/-! PROOFS. The statements of 44_mgf: mgf1 as the blocks of its counter, the MGF1 laws, and the command MGF1. -/

namespace Sys2Proof.Machine

/-! ### The counter blocks of mgf1 (44_mgf R180) -/

theorem lt_ceilDiv_iff {a b k : Nat} (hb : 1 ≤ b) : k < ceilDiv a b ↔ k * b < a := by
  rw [ceilDiv, Nat.lt_iff_add_one_le, Nat.le_div_iff_mul_le hb, Nat.succ_mul]
  omega

/-- A field of a 32-bit word is the quotient, cut to the field's width. -/
theorem extractLsb'_ofNat_32 (i start len : Nat) (h : start + len ≤ 32) :
    (BitVec.ofNat 32 i).extractLsb' start len = BitVec.ofNat len (i / 2 ^ start) := by
  refine BitVec.eq_of_getLsbD_eq fun j hj => ?_
  have hlt : start + j < 32 := by omega
  simp only [BitVec.getLsbD_extractLsb', BitVec.getLsbD_ofNat, Nat.testBit_div_two_pow, Nat.add_comm j, hj, hlt,
    decide_true, Bool.true_and]

theorem be32_eq (i : Nat) :
    be32 i = [BitVec.ofNat 8 (i / 2 ^ 24), BitVec.ofNat 8 (i / 2 ^ 16), BitVec.ofNat 8 (i / 2 ^ 8), BitVec.ofNat 8 i] := by
  simp [be32, extractLsb'_ofNat_32]

theorem be32_zero : be32 0 = [0x00, 0x00, 0x00, 0x00] := rfl

/-- The blocks `H(seed ‖ be32(i))` for the first `k` values of the counter, in order. -/
def counterBlocks (H : List Byte → List Byte) (seed : List Byte) (k : Nat) : List Byte :=
  ((List.range k).map fun i => H (seed ++ be32 i)).flatten

section
variable (H : List Byte → List Byte) (seed : List Byte)

@[simp] theorem counterBlocks_zero : counterBlocks H seed 0 = [] := rfl

theorem counterBlocks_succ (k : Nat) : counterBlocks H seed (k + 1) = counterBlocks H seed k ++ H (seed ++ be32 k) := by
  simp [counterBlocks, List.range_succ]

theorem counterBlocks_prefix {k l : Nat} (h : k ≤ l) : counterBlocks H seed k <+: counterBlocks H seed l := by
  induction l, h using Nat.le_induction with
  | base => exact List.prefix_rfl
  | succ l _ ih => exact ih.trans (counterBlocks_succ H seed l ▸ List.prefix_append ..)

variable {h : Nat} (hH : ∀ m, (H m).length = h)
include hH

theorem counterBlocks_length (k : Nat) : (counterBlocks H seed k).length = k * h := by
  induction k with
  | zero => simp
  | succ k ih => rw [counterBlocks_succ, List.length_append, ih, hH, Nat.succ_mul]

/-- From the first `k` blocks on, with fuel for the missing bytes, the loop appends blocks up to the `ceil(n / h)`-th and no
further. -/
theorem mgfLoop_counterBlocks (hh : 1 ≤ h) (n : Nat) {fuel k : Nat} (hk : k ≤ ceilDiv n h) (hf : n ≤ k * h + fuel) :
    mgfLoop H seed n fuel (counterBlocks H seed k) k = counterBlocks H seed (ceilDiv n h) := by
  induction fuel generalizing k with
  | zero =>
    have hlast : ¬ k < ceilDiv n h := mt (lt_ceilDiv_iff hh).1 (Nat.not_lt.2 hf)
    rw [mgfLoop, Nat.le_antisymm hk (Nat.not_lt.1 hlast)]
  | succ f ih =>
    have hlen := counterBlocks_length H seed hH k
    by_cases hlt : k < ceilDiv n h
    · have hmore := (lt_ceilDiv_iff hh).1 hlt
      rw [mgfLoop_more _ _ _ _ _ _ (hlen ▸ hmore), ← counterBlocks_succ]
      exact ih hlt (by rw [Nat.succ_mul]; omega)
    · have hdone := mt (lt_ceilDiv_iff hh).2 hlt
      rw [mgfLoop_done _ _ _ _ _ _ (hlen ▸ Nat.not_lt.1 hdone), Nat.le_antisymm hk (Nat.not_lt.1 hlt)]

end

theorem mgf1_eq_counterBlocks (c : Config) (seed : List Byte) (n r : Nat) {o : Nat} (ho : 1 ≤ o / 8) :
    mgf1 c seed n r o = (counterBlocks (fun m => hashMsg c m r o) seed (ceilDiv n (o / 8))).take n := by
  rw [mgf1, ← counterBlocks_zero (fun m => hashMsg c m r o) seed,
    mgfLoop_counterBlocks _ seed (fun m => hashMsg_length c m r o) ho n (Nat.zero_le _) (Nat.le_add_left ..)]

/-- Settles O53: `mgf1_eq_counterBlocks`, with the bytes of the counter by `be32_eq`. -/
theorem mgf1ConcatenatesHashes : Obligations.Mgf1ConcatenatesHashes := by
  intro c seed n r o ho
  simp only [mgf1_eq_counterBlocks c seed n r ho, counterBlocks, ceilDiv, be32_eq]

/-! ### The MGF1 laws (44_mgf R182) -/

/-- A shorter mask is cut from fewer blocks, and these begin the longer one's. -/
theorem mgf1_eq_take (c : Config) (seed : List Byte) (r : Nat) {n1 n2 o : Nat} (ho : 1 ≤ o / 8) (h : n1 ≤ n2) :
    mgf1 c seed n1 r o = (mgf1 c seed n2 r o).take n1 := by
  have hle : ceilDiv n1 (o / 8) ≤ ceilDiv n2 (o / 8) := Nat.div_le_div_right (by omega)
  have hpre : mgf1 c seed n1 r o <+: counterBlocks (fun m => hashMsg c m r o) seed (ceilDiv n2 (o / 8)) := by
    rw [mgf1_eq_counterBlocks c seed n1 r ho]
    exact (List.take_prefix ..).trans (counterBlocks_prefix _ seed hle)
  rw [mgf1_eq_counterBlocks c seed n2 r ho, List.take_take, Nat.min_eq_left h]
  have := List.prefix_iff_eq_take.1 hpre
  rwa [mgf1_length c seed n1 r o ho] at this

/-- A mask of one block is the hash at counter 0. -/
theorem mgf1_one_block (c : Config) (seed : List Byte) (r : Nat) {o : Nat} (ho : 1 ≤ o / 8) :
    mgf1 c seed (o / 8) r o = hashMsg c (seed ++ [0x00, 0x00, 0x00, 0x00]) r o := by
  have hone : ceilDiv (o / 8) (o / 8) = 1 := Nat.div_eq_of_lt_le (by omega) (by omega)
  rw [mgf1_eq_counterBlocks c seed _ r ho, hone, counterBlocks_succ, counterBlocks_zero, List.nil_append,
    List.take_of_length_le (hashMsg_length ..).le, be32_zero]

/-- Settles O54: `mgf1_length`, `mgf1_eq_take` and `mgf1_one_block`. -/
theorem mgf1Laws : Obligations.Mgf1Laws := fun c seed r o ho =>
  ⟨fun n => mgf1_length c seed n r o ho, fun _ _ h => mgf1_eq_take c seed r ho h, mgf1_one_block c seed r ho⟩

/-! ### MGF1 (44_mgf R181) -/

/-- The bytes that MGF1 writes (44_mgf R181). -/
def maskOf (s : State) (seed : List Byte) : List Byte :=
  mgf1 s.cfg seed s.regs.dstLen.toNat s.regs.rateBits.toNat s.regs.outBits.toNat

theorem maskOf_length {s : State} (seed : List Byte) (hout : validOut s.regs.outBits = true) :
    (maskOf s seed).length = s.regs.dstLen.toNat :=
  mgf1_length _ _ _ _ _ (outBytes_bounds hout).1

/-- With legal rate and output, a written source region and an output region in range, MGF1 delivers the mask: a 32-bit
DST_LEN never needs more than 2^32 blocks. -/
theorem execMgf1_of_ok {s : State} {seed : List Byte} (hrate : validRate s.regs.rateBits = true)
    (hout : validOut s.regs.outBits = true)
    (hsrc : inRange s.cfg s.regs.srcAddr s.regs.srcLen.toNat = true)
    (hseed : Memory.readBytes s.buf s.regs.srcAddr.toNat s.regs.srcLen.toNat = .ok seed)
    (hdst : inRange s.cfg s.regs.dstAddr s.regs.dstLen.toNat = true) :
    execMgf1 s = .next (delivered s s.regs.dstLen.toNat (maskOf s seed)) := by
  have hcount : ¬ 2 ^ 32 < ceilDiv s.regs.dstLen.toNat (outBytes s) :=
    Nat.not_lt.2 ((ceilDiv_le _ (outBytes_bounds hout).1).trans s.regs.dstLen.isLt.le)
  simp only [execMgf1, hrate, hout, hsrc, gt_iff_lt, if_neg hcount, withBytes_of_ok _ hseed, deliver_of_inRange _ hdst, maskOf,
    Bool.not_true, Bool.false_eq_true, if_false]

/-- Settles O55: MGF1 passes its checks and delivers the mask, `execMgf1_of_ok` and `delivered_frame`. -/
theorem mgf1WritesTheMask : Obligations.Mgf1WritesTheMask := by
  intro s seed hrate hout hsrc hseed hdst
  have hvalid := validOut_iff.2 hout
  have hexec := execMgf1_of_ok (validRate_iff.2 hrate) hvalid (inRange_iff.2 hsrc) hseed (inRange_iff.2 hdst)
  have hframe := delivered_frame s (maskOf s seed)
  rw [maskOf_length seed hvalid] at hframe
  obtain ⟨hrec, hholds, hbuf, hlanes, hregs, henv⟩ := hframe
  exact ⟨_, hexec, hrec, hholds, maskOf_length seed hvalid, hbuf, hlanes, hregs, henv⟩

end Sys2Proof.Machine
end

section
/-! PROOFS. The statements of 45_oaep: a block's masks undone, decoding an encoded block, and the commands OAEP_ENC and
OAEP_DEC, alone and one after the other. -/

namespace Sys2Proof.Machine

/-! ### Masks (45_oaep R191, R197) -/

section
variable (c : Config) (b : List Byte) (r : Nat) {a : List Byte} {n o : Nat} (ho : 1 ≤ o / 8) (ha : a.length = n)
include ho ha

theorem xorStr_mgf1_length : (xorStr a (mgf1 c b n r o)).length = n := by
  rw [xorStr_length, mgf1_length c b n r o ho, ha, Nat.min_self]

/-- A string masked twice with the same mask is the string. -/
theorem xorStr_mgf1_twice : xorStr (xorStr a (mgf1 c b n r o)) (mgf1 c b n r o) = a :=
  xorStr_xorStr _ _ (ha.trans (mgf1_length c b n r o ho).symm)

end

/-- In a block of `k` bytes the masked data block is the rest after the leading byte and the masked seed. -/
theorem oaepUnmask_of_length (c : Config) {E : List Byte} {k : Nat} (r o : Nat) (hE : E.length = k) :
    oaepUnmask c E k r o = xorStr (E.drop (1 + o / 8)) (mgf1 c (xorStr ((E.drop 1).take (o / 8))
      (mgf1 c (E.drop (1 + o / 8)) (o / 8) r o)) (k - o / 8 - 1) r o) := by
  rw [oaepUnmask, List.take_of_length_le hE.le]

/-- Unmasking undoes masking: the rest of the block gives the seed back, and the seed the data block. -/
theorem oaepUnmask_oaepMask (c : Config) {db seed : List Byte} {k : Nat} (r : Nat) {o : Nat} (ho : 1 ≤ o / 8)
    (hk : o / 8 + 1 ≤ k) (hdb : db.length = k - o / 8 - 1) (hseed : seed.length = o / 8) :
    oaepUnmask c (oaepMask c db seed k r o) k r o = db := by
  rw [oaepUnmask_of_length c r o (oaepMask_length c db seed r o ho hk hdb hseed)]
  simp only [oaepMask]
  generalize hmdb : xorStr db (mgf1 c seed (k - o / 8 - 1) r o) = maskedDB
  generalize hms : xorStr seed (mgf1 c maskedDB (o / 8) r o) = maskedSeed
  have hlen : maskedSeed.length = o / 8 := hms ▸ xorStr_mgf1_length c maskedDB r ho hseed
  have htake : (([0x00] ++ maskedSeed ++ maskedDB).drop 1).take (o / 8) = maskedSeed := List.take_left' hlen
  have hdrop : ([0x00] ++ maskedSeed ++ maskedDB).drop (1 + o / 8) = maskedDB := List.drop_left' (by simp [hlen]; omega)
  rw [htake, hdrop, ← hms, xorStr_mgf1_twice c maskedDB r ho hseed, ← hmdb, xorStr_mgf1_twice c seed r ho hdb]

/-! ### The data block (45_oaep R190) -/

theorem oaepFits_iff {len k h : Nat} : oaepFits len k h = true ↔ len + 2 * h + 2 ≤ k := decide_eq_true_iff

section
variable {lHash : List Byte} {h : Nat} (hl : lHash.length = h) (m : List Byte) (k : Nat)
include hl

theorem oaepDb_take : (oaepDb lHash m k h).take h = lHash := by
  rw [oaepDb, List.append_assoc, List.append_assoc, List.take_left' hl]

theorem oaepDb_drop : (oaepDb lHash m k h).drop h = List.replicate (k - 2 * h - 2 - m.length) 0x00 ++ [0x01] ++ m := by
  rw [oaepDb, List.append_assoc, List.append_assoc, List.drop_left' hl, List.append_assoc]

theorem oaepDb_drop_delimiter : (oaepDb lHash m k h).drop (h + (k - 2 * h - 2 - m.length) + 1) = m :=
  List.drop_left' (by simp [hl, Nat.add_assoc])

end

/-! ### Decoding (45_oaep R197) -/

theorem find01_eq_some_iff {b : List Byte} {i : Nat} :
    find01 b = some i ↔ b[i]? = some 0x01 ∧ ∀ j < i, b[j]? ≠ some 0x01 := by
  rw [find01, List.findIdx?_eq_some_iff_getElem]
  constructor
  · rintro ⟨hi, h1, hlt⟩
    refine ⟨by simpa [hi] using h1, fun j hj => ?_⟩
    simpa [hj.trans hi] using hlt j hj
  · rintro ⟨h1, hlt⟩
    obtain ⟨hi, h1⟩ := List.getElem?_eq_some_iff.1 h1
    refine ⟨hi, by simpa using h1, fun j hj => ?_⟩
    simpa [hj.trans hi] using hlt j hj

/-- The zeros of PS do not hide the delimiter. -/
theorem find01_zeros (n : Nat) (m : List Byte) : find01 (List.replicate n 0x00 ++ [0x01] ++ m) = some n := by
  rw [List.append_assoc, find01_eq_some_iff]
  refine ⟨by simp, fun j hj => ?_⟩
  simp [List.getElem?_append_left, hj]

/-- With a leading byte that R195 lets pass and a delimiter at `i`, only the label decides (45_oaep R197). -/
theorem oaepDecode_of_delimiter {c : Config} {E label : List Byte} {k r o : Nat} {st : Bool} {i : Nat}
    (hy : st = true → E[0]? = some 0x00) (hi : find01 ((oaepUnmask c E k r o).drop (o / 8)) = some i) :
    oaepDecode c E label k r o st =
      if (oaepUnmask c E k r o).take (o / 8) ≠ hashMsg c label r o then .error .labelMismatch
      else .ok ((oaepUnmask c E k r o).drop (o / 8 + i + 1)) := by
  have hpass : (st && E.getD 0 0 != 0x00) = false := by
    cases st with
    | false => rfl
    | true => simp [List.getD, hy rfl]
  simp only [oaepDecode, hpass, hi, List.drop_drop, Nat.add_assoc, Bool.false_eq_true, if_false]

/-- Decoding a masked data block: its label hash against the label's, and its message. -/
theorem oaepDecode_oaepMask (c : Config) {lHash m seed : List Byte} (label : List Byte) {k : Nat} (r : Nat) {o : Nat} (st : Bool)
    (ho : 1 ≤ o / 8) (hfits : oaepFits m.length k (o / 8) = true) (hl : lHash.length = o / 8) (hseed : seed.length = o / 8) :
    oaepDecode c (oaepMask c (oaepDb lHash m k (o / 8)) seed k r o) label k r o st =
      if lHash ≠ hashMsg c label r o then .error .labelMismatch else .ok m := by
  have hk := oaepFits_iff.1 hfits
  have hun := oaepUnmask_oaepMask c r ho (by omega) (oaepDb_length lHash m hl hfits) hseed
  rw [oaepDecode_of_delimiter (fun _ => rfl) (by rw [hun, oaepDb_drop hl, find01_zeros]), hun, oaepDb_take hl,
    oaepDb_drop_delimiter hl]

theorem oaepEncode_eq_ok_iff {c : Config} {m label seed E : List Byte} {k r o : Nat} :
    oaepEncode c m label k r o seed = .ok E ↔ oaepFits m.length k (o / 8) = true ∧
      oaepMask c (oaepDb (hashMsg c label r o) m k (o / 8)) seed k r o = E := by
  cases hfits : oaepFits m.length k (o / 8) <;> simp [oaepEncode, hfits]

/-- The block of a message that fits has `k` bytes (45_oaep R190). -/
theorem oaepMask_oaepDb_length (c : Config) {lHash m seed : List Byte} {k : Nat} (r : Nat) {o : Nat} (ho : 1 ≤ o / 8)
    (hfits : oaepFits m.length k (o / 8) = true) (hl : lHash.length = o / 8) (hseed : seed.length = o / 8) :
    (oaepMask c (oaepDb lHash m k (o / 8)) seed k r o).length = k := by
  have hk := oaepFits_iff.1 hfits
  exact oaepMask_length c _ seed r o ho (by omega) (oaepDb_length lHash m hl hfits) hseed

/-! ### OAEP_ENC (45_oaep R192) -/

/-- OAEP_ENC's checks up to the length test pass, on the message `m` and the label `label` (45_oaep R192). -/
structure EncodesFrom (s : State) (m label : List Byte) : Prop where
  rate : validRate s.regs.rateBits = true
  out : validOut s.regs.outBits = true
  src : inRange s.cfg s.regs.srcAddr s.regs.srcLen.toNat = true
  aux : inRange s.cfg s.regs.auxAddr s.regs.auxLen.toNat = true
  message : Memory.readBytes s.buf s.regs.srcAddr.toNat s.regs.srcLen.toNat = .ok m
  label : Memory.readBytes s.buf s.regs.auxAddr.toNat s.regs.auxLen.toNat = .ok label
  fits : oaepFits m.length s.regs.k.toNat (outBytes s) = true

/-- The block that OAEP_ENC writes (45_oaep R190, R191). -/
def blockOf (s : State) (m label : List Byte) : List Byte :=
  oaepMask s.cfg (oaepDb (hashMsg s.cfg label s.regs.rateBits.toNat s.regs.outBits.toNat) m s.regs.k.toNat (outBytes s))
    (rngBytes s.env (outBytes s)) s.regs.k.toNat s.regs.rateBits.toNat s.regs.outBits.toNat

/-- The state that a successful OAEP_ENC leaves. -/
def encoded (s : State) (m label : List Byte) : State :=
  delivered (rngDrawn (outBytes s) s) s.regs.k.toNat (blockOf s m label)

section
variable {s : State} {m label : List Byte}

theorem blockOf_length (h : EncodesFrom s m label) : (blockOf s m label).length = s.regs.k.toNat :=
  oaepMask_oaepDb_length _ _ (outBytes_bounds h.out).1 h.fits (hashMsg_length ..) (rngBytes_length ..)

theorem execOaepEnc_of_ok (h : EncodesFrom s m label) (hdst : inRange s.cfg s.regs.dstAddr s.regs.k.toNat = true) :
    execOaepEnc s = .next (encoded s m label) := by
  have hdeliver := deliver_of_inRange (s := rngDrawn (outBytes s) s) (blockOf s m label) hdst
  simp only [execOaepEnc, h.rate, h.out, h.src, h.aux, h.fits, withBytes_of_ok _ h.message, withBytes_of_ok _ h.label,
    Bool.not_true, Bool.false_eq_true, if_false]
  exact hdeliver

theorem execOaepEnc_succeeded {t : State} (h : execOaepEnc s = .next t) (ht : t.status.err = .none) :
    ∃ m label, EncodesFrom s m label ∧ inRange s.cfg s.regs.dstAddr s.regs.k.toNat = true ∧ t = encoded s m label := by
  obtain ⟨hrate, h⟩ := check_passed h ht (by decide)
  obtain ⟨hout, h⟩ := check_passed h ht (by decide)
  obtain ⟨hsrc, h⟩ := check_passed h ht (by decide)
  obtain ⟨haux, h⟩ := check_passed h ht (by decide)
  obtain ⟨m, hm, h⟩ := withBytes_next h
  obtain ⟨label, hlabel, h⟩ := withBytes_next h
  obtain ⟨hfits, h⟩ := check_passed h ht (by decide)
  obtain ⟨hdst, rfl⟩ := deliver_succeeded h ht
  exact ⟨m, label, ⟨by simpa using hrate, by simpa using hout, by simpa using hsrc, by simpa using haux, hm, hlabel,
    by simpa using hfits⟩, hdst, rfl⟩

/-- OAEP_ENC's end: the block in its region, and h bytes drawn (45_oaep R192, 60_exceptions R236). -/
theorem encoded_frame (h : EncodesFrom s m label) :
    Recorded .none s.regs.k.toNat s (encoded s m label) ∧ HoldsAt s.regs.dstAddr.toNat (blockOf s m label) (encoded s m label) ∧
    KeepsBufOutside s.regs.dstAddr.toNat s.regs.k.toNat s (encoded s m label) ∧ (encoded s m label).lanes = s.lanes ∧
    KeepsRegisters s (encoded s m label) ∧ (encoded s m label).env.rng = s.env.rng.drop (outBytes s) := by
  have hframe := delivered_frame (rngDrawn (outBytes s) s) (blockOf s m label)
  rw [blockOf_length h] at hframe
  obtain ⟨hrec, hholds, hbuf, hlanes, hregs, henv⟩ := hframe
  exact ⟨hrec, hholds, hbuf, hlanes, hregs, congrArg Env.rng henv⟩

end

/-- Settles O56: OAEP_ENC passes its checks and leaves its block, `execOaepEnc_of_ok` and `encoded_frame`. -/
theorem oaepEncWritesTheBlock : Obligations.OaepEncWritesTheBlock := by
  intro s m label hrate hout hsrc haux hm hlabel hlen hdst
  have hin : EncodesFrom s m label := ⟨validRate_iff.2 hrate, validOut_iff.2 hout, inRange_iff.2 hsrc, inRange_iff.2 haux, hm,
    hlabel, oaepFits_iff.2 hlen⟩
  have ho : 1 ≤ s.regs.outBits.toNat / 8 := (outBytes_bounds hin.out).1
  have hseed := rngBytes_length s.env (s.regs.outBits.toNat / 8)
  have hdb := oaepDb_length _ m (hashMsg_length s.cfg label s.regs.rateBits.toNat s.regs.outBits.toNat) hin.fits
  obtain ⟨hrec, hholds, hbuf, hlanes, hregs, hrng⟩ := encoded_frame hin
  exact ⟨_, execOaepEnc_of_ok hin (inRange_iff.2 hdst), hrec, hholds, hseed, xorStr_mgf1_length _ _ _ ho hseed, hdb,
    xorStr_mgf1_length _ _ _ ho hdb, hbuf, hlanes, hregs, hrng⟩

/-! ### OAEP_DEC (45_oaep R193) -/

/-- OAEP_DEC's register and region checks pass, on the block `E` and the label `label` (45_oaep R193). -/
structure DecodesFrom (s : State) (E label : List Byte) : Prop where
  rate : validRate s.regs.rateBits = true
  out : validOut s.regs.outBits = true
  room : 2 * outBytes s + 2 ≤ s.regs.k.toNat
  src : inRange s.cfg s.regs.srcAddr s.regs.k.toNat = true
  aux : inRange s.cfg s.regs.auxAddr s.regs.auxLen.toNat = true
  block : Memory.readBytes s.buf s.regs.srcAddr.toNat s.regs.k.toNat = .ok E
  label : Memory.readBytes s.buf s.regs.auxAddr.toNat s.regs.auxLen.toNat = .ok label

/-- What OAEP_DEC's decoding answers. -/
def decodeOf (s : State) (E label : List Byte) : Except ErrCode (List Byte) :=
  oaepDecode s.cfg E label s.regs.k.toNat s.regs.rateBits.toNat s.regs.outBits.toNat s.strictY

section
variable {s : State} {E label : List Byte}

theorem execOaepDec_of_error {e : ErrCode} (h : DecodesFrom s E label) (hdec : decodeOf s E label = .error e) :
    execOaepDec s = .next (raiseError e s) := by
  rw [decodeOf] at hdec
  simp only [execOaepDec, h.rate, h.out, Nat.not_lt.2 h.room, h.src, h.aux, withBytes_of_ok _ h.block, withBytes_of_ok _ h.label,
    hdec, Bool.not_true, Bool.false_eq_true, if_false]

theorem execOaepDec_of_ok {msg : List Byte} (h : DecodesFrom s E label) (hdec : decodeOf s E label = .ok msg)
    (hdst : inRange s.cfg s.regs.dstAddr msg.length = true) : execOaepDec s = .next (delivered s msg.length msg) := by
  rw [decodeOf] at hdec
  simp only [execOaepDec, h.rate, h.out, Nat.not_lt.2 h.room, h.src, h.aux, withBytes_of_ok _ h.block, withBytes_of_ok _ h.label,
    hdec, deliver_of_inRange _ hdst, Bool.not_true, Bool.false_eq_true, if_false]

end

/-- Settles O57: the data block is the block unmasked, `oaepUnmask_of_length`, so the decoding answers the message,
`oaepDecode_of_delimiter`, and OAEP_DEC delivers it. -/
theorem oaepDecWritesTheMessage : Obligations.OaepDecWritesTheMessage := by
  intro s E label seed db i hrate hout hroom hsrc haux hE hlabel hy hseed hdb hone hfirst hhash hdst
  have hin : DecodesFrom s E label := ⟨validRate_iff.2 hrate, validOut_iff.2 hout, hroom, inRange_iff.2 hsrc, inRange_iff.2 haux,
    hE, hlabel⟩
  have hun : oaepUnmask s.cfg E s.regs.k.toNat s.regs.rateBits.toNat s.regs.outBits.toNat = db := by
    rw [oaepUnmask_of_length _ _ _ (Memory.readBytes_length hE), hdb, hseed]
  have hdec : decodeOf s E label = .ok (db.drop (s.regs.outBits.toNat / 8 + i + 1)) := by
    rw [decodeOf, oaepDecode_of_delimiter hy (hun ▸ find01_eq_some_iff.2 ⟨hone, hfirst⟩), hun, if_neg (not_not.2 hhash)]
  exact ⟨_, execOaepDec_of_ok hin hdec (inRange_iff.2 hdst), delivered_frame s _⟩

/-! ### OAEP_DEC after OAEP_ENC (45_oaep R194, R196) -/

/-- The engine set up to decode, from `src` to `dst`, under the label at `auxAddr`, with K, RATE_BITS and OUT_BITS as they are. -/
def decodingFrom (t : State) (src auxAddr auxLen dst : Word) (st : Bool) : State :=
  { t with strictY := st, regs := { t.regs with srcAddr := src, auxAddr := auxAddr, auxLen := auxLen, dstAddr := dst } }

section
variable {s : State} {m label : List Byte}

/-- Where OAEP_ENC has succeeded, OAEP_DEC reads the block that was written. -/
theorem decodesFrom_encoded (h : EncodesFrom s m label) (hdst : inRange s.cfg s.regs.dstAddr s.regs.k.toNat = true)
    {auxAddr auxLen : Word} {label2 : List Byte} (haux : auxAddr.toNat + auxLen.toNat ≤ s.cfg.bufBytes)
    (hlabel2 : Memory.readBytes (encoded s m label).buf auxAddr.toNat auxLen.toNat = .ok label2) (d : Word) (st : Bool) :
    DecodesFrom (decodingFrom (encoded s m label) s.regs.dstAddr auxAddr auxLen d st) (blockOf s m label) label2 where
  rate := h.rate
  out := h.out
  room := by
    have hfits := oaepFits_iff.1 h.fits
    change 2 * outBytes s + 2 ≤ s.regs.k.toNat
    omega
  src := hdst
  aux := inRange_iff.2 haux
  block := by
    have := Memory.readBytes_writeBytes s.buf s.regs.dstAddr.toNat (blockOf s m label)
    rwa [blockOf_length h] at this
  label := hlabel2

/-- The decoding of the block that OAEP_ENC has written. -/
theorem decodeOf_encoded (h : EncodesFrom s m label) (label2 : List Byte) (src auxAddr auxLen d : Word) (st : Bool) :
    decodeOf (decodingFrom (encoded s m label) src auxAddr auxLen d st) (blockOf s m label) label2 =
      if hashMsg s.cfg label s.regs.rateBits.toNat s.regs.outBits.toNat ≠
        hashMsg s.cfg label2 s.regs.rateBits.toNat s.regs.outBits.toNat then .error .labelMismatch else .ok m :=
  oaepDecode_oaepMask s.cfg label2 _ st (outBytes_bounds h.out).1 h.fits (hashMsg_length ..) (rngBytes_length ..)

end

/-- Settles O59: the label hash in the block is the label's own, so `oaepDecode_oaepMask` answers the message; and OAEP_DEC reads
what OAEP_ENC wrote, `decodesFrom_encoded`. -/
theorem encodeThenDecodeReturnsTheMessage : Obligations.EncodeThenDecodeReturnsTheMessage := by
  refine ⟨fun c m label seed k r o st ho hk hlen hseed => ?_, ?_⟩
  · have hfits : oaepFits m.length k (o / 8) = true := oaepFits_iff.2 (by omega)
    exact ⟨_, oaepEncode_eq_ok_iff.2 ⟨hfits, rfl⟩, oaepMask_oaepDb_length c r ho hfits (hashMsg_length ..) hseed,
      (oaepDecode_oaepMask c label r st ho hfits (hashMsg_length ..) hseed).trans (if_neg (not_not.2 rfl))⟩
  · intro s t m label auxAddr auxLen d st hc h ht hm hlabel hlabel2 haux hd
    obtain ⟨m', label', hin, hdst, rfl⟩ := execOaepEnc_succeeded h ht
    cases hm.symm.trans hin.message
    cases hlabel.symm.trans hin.label
    have hdec := (decodeOf_encoded hin label s.regs.dstAddr auxAddr auxLen d st).trans (if_neg (not_not.2 rfl))
    exact ⟨_, execOaepDec_of_ok (decodesFrom_encoded hin hdst haux hlabel2 d st) hdec (inRange_iff.2 hd), rfl,
      toNat_ofNat_of_le_bufBytes hc (by omega), delivered_holdsAt _ _ _⟩

/-- Settles O60: the label hash in the block is the encoder's, so `oaepDecode_oaepMask` answers LABEL_MISMATCH; and OAEP_DEC reads
the K bytes that OAEP_ENC wrote, `decodesFrom_encoded`. -/
theorem wrongLabelIsDetected : Obligations.WrongLabelIsDetected := by
  refine ⟨fun c m label label2 seed E k r o st ho hseed hE hne => ?_, fun s t h ht => ?_⟩
  · obtain ⟨hfits, rfl⟩ := oaepEncode_eq_ok_iff.1 hE
    exact ⟨oaepMask_oaepDb_length c r ho hfits (hashMsg_length ..) hseed,
      (oaepDecode_oaepMask c label2 r st ho hfits (hashMsg_length ..) hseed).trans (if_pos hne.symm)⟩
  · obtain ⟨m, label', hin, hdst, rfl⟩ := execOaepEnc_succeeded h ht
    obtain ⟨⟨-, hresLen⟩, hholds, hbuf, -⟩ := encoded_frame hin
    refine ⟨⟨hresLen.trans (BitVec.ofNat_toNat ..), hbuf, blockOf s m label', blockOf_length hin, hholds⟩, ?_⟩
    intro label label2 auxAddr auxLen d st hlabel hlabel2 haux hne
    cases hlabel.symm.trans hin.label
    have hdec := (decodeOf_encoded hin label2 s.regs.dstAddr auxAddr auxLen d st).trans (if_pos hne.symm)
    exact ⟨_, execOaepDec_of_error (decodesFrom_encoded hin hdst haux hlabel2 d st) hdec, raisedOnly_raiseError _ _⟩

end Sys2Proof.Machine
end

section
/-! PROOFS. The statements of 60_exceptions: what an error leaves unchanged, the checks of each command in the order of R223, and
the random-byte port. -/

namespace Sys2Proof.Machine

/-! ### What an error leaves unchanged (60_exceptions R222) -/

/-- A completion with an error is `raiseError`, after the port's bytes that were drawn. -/
theorem exec_raised {i : Instr} {s t : State} (h : exec i s = .next t) (ht : t.status.err ≠ .none) :
    ∃ e n, t = raiseError e (rngDrawn n s) := by
  rcases exec_next_cases h with hr | ⟨L, rfl⟩ | ⟨d, out, -, rfl⟩
  · exact hr
  · exact absurd rfl ht
  · exact absurd rfl ht

/-- `raiseError` after bytes of the port were drawn: only the port differs from `raiseError` alone. -/
theorem raiseError_rngDrawn_frame (e : ErrCode) (n : Nat) (s : State) :
    Recorded e 0 s (raiseError e (rngDrawn n s)) ∧ (raiseError e (rngDrawn n s)).lanes = s.lanes ∧
    (raiseError e (rngDrawn n s)).buf = s.buf ∧ KeepsRegisters s (raiseError e (rngDrawn n s)) :=
  ⟨⟨rfl, rfl⟩, rfl, rfl, keepsRegisters_refl s⟩

/-- Settles O26: such a completion is `raiseError`, `exec_raised`. -/
theorem errorsChangeNothingElse : Obligations.ErrorsChangeNothingElse := by
  intro i s t h ht
  obtain ⟨e, n, rfl⟩ := exec_raised h ht
  exact raiseError_rngDrawn_frame e n s

/-! ### The checks (60_exceptions R224, 20_memory R67) -/

theorem illegalRate_iff {r : Word} : (!validRate r) = true ↔ ¬ LegalBits r := by
  rw [Bool.not_eq_true', ← Bool.not_eq_true, validRate_iff]

theorem illegalOut_iff {o : Word} : (!validOut o) = true ↔ ¬ LegalBits o := by
  rw [Bool.not_eq_true', ← Bool.not_eq_true, validOut_iff]

theorem outOfRange_iff {c : Config} {a : Word} {n : Nat} : (!inRange c a n) = true ↔ c.bufBytes < a.toNat + n := by
  rw [Bool.not_eq_true', ← Bool.not_eq_true, inRange_iff, Nat.not_le]

theorem rate_passes {r : Word} (h : LegalBits r) : ¬ (!validRate r) = true :=
  illegalRate_iff.not_left.2 h

theorem out_passes {o : Word} (h : LegalBits o) : ¬ (!validOut o) = true :=
  illegalOut_iff.not_left.2 h

theorem region_passes {c : Config} {a : Word} {n : Nat} (h : a.toNat + n ≤ c.bufBytes) : ¬ (!inRange c a n) = true :=
  outOfRange_iff.not.2 (Nat.not_lt.2 h)

/-- A 32-bit DST_LEN never needs more than 2^32 blocks (90_conflicts C8). -/
theorem count_passes {s : State} (h : LegalBits s.regs.outBits) : ¬ ceilDiv s.regs.dstLen.toNat (outBytes s) > 2 ^ 32 :=
  Nat.not_lt.2 ((ceilDiv_le _ (outBytes_bounds (validOut_iff.2 h)).1).trans s.regs.dstLen.isLt.le)

/-- A command that goes on at a check has raised the check's error, or passed the check and gone on. -/
theorem check_cases {s t : State} {p : Prop} [Decidable p] {e : ErrCode} {o : Host.Outcome State Fault Refusal}
    (h : (if p then .next (raiseError e s) else o) = .next t) : p ∧ t = raiseError e s ∨ ¬ p ∧ o = .next t := by
  split at h
  · next hp => cases h; exact .inl ⟨hp, rfl⟩
  · next hp => exact .inr ⟨hp, h⟩

/-- A failed check ends the command with its error alone. -/
theorem raisedOnly_of_exec {i : Instr} {s : State} {e : ErrCode} (h : exec i s = .next (raiseError e s)) :
    ∃ t, exec i s = .next t ∧ RaisedOnly e s t :=
  ⟨_, h, raisedOnly_raiseError e s⟩

/-! ### CONFIG (60_exceptions R225) -/

/-- The commands that read RATE_BITS. -/
abbrev readsRate : List Instr := [.pad, .absorb, .hash, .mgf1, .oaepEnc, .oaepDec]

/-- The commands that read OUT_BITS. -/
abbrev readsOut : List Instr := [.squeeze, .hash, .mgf1, .oaepEnc, .oaepDec]

section
variable {i : Instr} {s : State}

theorem exec_of_illegalRate (hi : i ∈ readsRate) (h : ¬ LegalBits s.regs.rateBits) :
    exec i s = .next (raiseError .config s) := by
  have hrate := illegalRate_iff.2 h
  simp only [readsRate, List.mem_cons, List.not_mem_nil, or_false] at hi
  rcases hi with rfl | rfl | rfl | rfl | rfl | rfl <;> exact if_pos hrate

/-- The test of OUT_BITS is the first, or comes after the test of RATE_BITS, which raises the same error. -/
theorem exec_of_illegalOut (hi : i ∈ readsOut) (h : ¬ LegalBits s.regs.outBits) :
    exec i s = .next (raiseError .config s) := by
  have hout := illegalOut_iff.2 h
  simp only [readsOut, List.mem_cons, List.not_mem_nil, or_false] at hi
  by_cases hr : LegalBits s.regs.rateBits
  · have hrate := rate_passes hr
    rcases hi with rfl | rfl | rfl | rfl | rfl
    · exact if_pos hout
    all_goals exact (if_neg hrate).trans (if_pos hout)
  · rcases hi with rfl | hi
    · exact if_pos hout
    · exact exec_of_illegalRate (by simp [hi]) hr

theorem execAbsorb_of_partialBlock (h : s.regs.srcLen.toNat % rateBytes s ≠ 0) :
    exec .absorb s = .next (raiseError .config s) := by
  by_cases hr : LegalBits s.regs.rateBits
  · exact (if_neg (rate_passes hr)).trans (if_pos h)
  · exact exec_of_illegalRate (by simp) hr

theorem execOaepDec_of_smallK (h : s.regs.k.toNat < 2 * outBytes s + 2) :
    exec .oaepDec s = .next (raiseError .config s) := by
  by_cases hr : LegalBits s.regs.rateBits
  · by_cases ho : LegalBits s.regs.outBits
    · exact (if_neg (rate_passes hr)).trans ((if_neg (out_passes ho)).trans (if_pos h))
    · exact exec_of_illegalOut (by simp) ho
  · exact exec_of_illegalRate (by simp) hr

end

/-- The outcome is no completion with CONFIG: what the part of a command after its CONFIG checks answers. -/
def NeverConfig (o : Host.Outcome State Fault Refusal) : Prop := ∀ t, o = .next t → t.status.err ≠ .config

section
variable {s t : State} {o : Host.Outcome State Fault Refusal}

theorem NeverConfig.raise {e : ErrCode} (he : e ≠ .config) : NeverConfig (.next (raiseError e s)) := by
  intro t h
  cases h
  exact he

theorem NeverConfig.finish (n : Nat) (s : State) : NeverConfig (.next (finish n s)) := by
  intro t h
  cases h
  exact nofun

theorem NeverConfig.check {p : Prop} [Decidable p] {e : ErrCode} (he : e ≠ .config) (ho : NeverConfig o) :
    NeverConfig (if p then .next (raiseError e s) else o) := by
  split
  · exact .raise he
  · exact ho

theorem NeverConfig.withBytes {a : Word} {n : Nat} {k : List Byte → Host.Outcome State Fault Refusal}
    (hk : ∀ bs, NeverConfig (k bs)) : NeverConfig (withBytes s a n k) := by
  intro t h
  obtain ⟨bs, -, hbs⟩ := withBytes_next h
  exact hk bs t hbs

theorem NeverConfig.deliver (s : State) (n : Nat) (out : List Byte) : NeverConfig (deliver s n out) :=
  .check (by decide) (.finish _ _)

/-- Decoding raises MALFORMED_PADDING or LABEL_MISMATCH only (60_exceptions R229, R230). -/
theorem oaepDecode_error_ne_config {c : Config} {E label : List Byte} {k r o : Nat} {st : Bool} {e : ErrCode}
    (h : oaepDecode c E label k r o st = .error e) : e ≠ .config := by
  simp only [oaepDecode] at h
  split at h
  · cases h; decide
  · split at h
    · cases h; decide
    · split at h
      · cases h; decide
      · cases h

/-- A command that ends with CONFIG at one of its CONFIG checks failed the check, or ends so later. -/
theorem config_check {p : Prop} [Decidable p] (h : (if p then .next (raiseError .config s) else o) = .next t) :
    p ∨ o = .next t :=
  (check_cases h).imp And.left And.right

/-- A command that tests RATE_BITS and OUT_BITS first: one of them is illegal, or it goes on with a legal output. -/
theorem config_check_bits (h : (if !validRate s.regs.rateBits then .next (raiseError .config s)
      else if !validOut s.regs.outBits then .next (raiseError .config s) else o) = .next t) :
    ¬ LegalBits s.regs.rateBits ∨ ¬ LegalBits s.regs.outBits ∨ LegalBits s.regs.outBits ∧ o = .next t := by
  rcases check_cases h with ⟨hr, -⟩ | ⟨-, h⟩
  · exact .inl (illegalRate_iff.1 hr)
  · rcases check_cases h with ⟨ho, -⟩ | ⟨ho, h⟩
    · exact .inr (.inl (illegalOut_iff.1 ho))
    · exact .inr (.inr ⟨illegalOut_iff.not_left.1 ho, h⟩)

/-- A completion with CONFIG has one of the causes of R225: past its CONFIG checks no command raises CONFIG. -/
theorem exec_config_cause {i : Instr} (h : exec i s = .next t) (ht : t.status.err = .config) :
    (i ∈ readsRate ∧ ¬ LegalBits s.regs.rateBits) ∨ (i ∈ readsOut ∧ ¬ LegalBits s.regs.outBits) ∨
    (i = .absorb ∧ s.regs.srcLen.toNat % rateBytes s ≠ 0) ∨ (i = .oaepDec ∧ s.regs.k.toNat < 2 * outBytes s + 2) := by
  have hend {o : Host.Outcome State Fault Refusal} (ho : o = .next t) (hn : NeverConfig o) : False := hn t ho ht
  cases i with
  | clear => exact (hend h (.finish _ _)).elim
  | permute => exact (hend h (.finish _ _)).elim
  | pad =>
    rcases config_check h with hr | h
    · exact .inl ⟨by simp, illegalRate_iff.1 hr⟩
    · exact (hend h (.check (by decide) (.withBytes fun _ => .deliver _ _ _))).elim
  | absorb =>
    rcases config_check h with hr | h
    · exact .inl ⟨by simp, illegalRate_iff.1 hr⟩
    · rcases config_check h with hb | h
      · exact .inr (.inr (.inl ⟨rfl, hb⟩))
      · exact (hend h (.check (by decide) (.withBytes fun _ => .finish _ _))).elim
  | squeeze =>
    rcases config_check h with ho | h
    · exact .inr (.inl ⟨by simp, illegalOut_iff.1 ho⟩)
    · exact (hend h (.deliver _ _ _)).elim
  | hash =>
    rcases config_check_bits h with hr | ho | ⟨-, h⟩
    · exact .inl ⟨by simp, hr⟩
    · exact .inr (.inl ⟨by simp, ho⟩)
    · exact (hend h (.check (by decide) (.withBytes fun _ => .deliver _ _ _))).elim
  | mgf1 =>
    rcases config_check_bits h with hr | ho | ⟨ho, h⟩
    · exact .inl ⟨by simp, hr⟩
    · exact .inr (.inl ⟨by simp, ho⟩)
    · rcases config_check h with hc | h
      · exact absurd hc (count_passes ho)
      · exact (hend h (.check (by decide) (.withBytes fun _ => .deliver _ _ _))).elim
  | oaepEnc =>
    rcases config_check_bits h with hr | ho | ⟨-, h⟩
    · exact .inl ⟨by simp, hr⟩
    · exact .inr (.inl ⟨by simp, ho⟩)
    · refine (hend h (.check (by decide) (.check (by decide) ?_))).elim
      exact .withBytes fun _ => .withBytes fun _ => .check (by decide) (.deliver _ _ _)
  | oaepDec =>
    rcases config_check_bits h with hr | ho | ⟨-, h⟩
    · exact .inl ⟨by simp, hr⟩
    · exact .inr (.inl ⟨by simp, ho⟩)
    · rcases config_check h with hk | h
      · exact .inr (.inr (.inr ⟨rfl, hk⟩))
      · refine (hend h (.check (by decide) (.check (by decide) ?_))).elim
        refine .withBytes fun E => .withBytes fun label => ?_
        split
        · next he => exact .raise (oaepDecode_error_ne_config he)
        · exact .deliver _ _ _

end

/-- Settles O27: the checks of each cause, and `exec_config_cause`. -/
theorem configErrorCauses : Obligations.ConfigErrorCauses := fun _ =>
  ⟨fun _ hi h => raisedOnly_of_exec (exec_of_illegalRate hi h), fun _ hi h => raisedOnly_of_exec (exec_of_illegalOut hi h),
    fun h => raisedOnly_of_exec (execAbsorb_of_partialBlock h), fun h => raisedOnly_of_exec (execOaepDec_of_smallK h),
    fun _ _ => exec_config_cause⟩

/-! ### Input regions out of range (60_exceptions R226) -/

section
variable {s : State}

theorem exec_of_srcOutOfRange {i : Instr} (hi : i = .hash ∨ i = .mgf1 ∨ i = .oaepEnc) (hr : LegalBits s.regs.rateBits)
    (ho : LegalBits s.regs.outBits) (h : s.cfg.bufBytes < s.regs.srcAddr.toNat + s.regs.srcLen.toNat) :
    exec i s = .next (raiseError .bufRange s) := by
  have hrate := rate_passes hr
  have hout := out_passes ho
  have hsrc := outOfRange_iff.2 h
  rcases hi with rfl | rfl | rfl
  · exact (if_neg hrate).trans ((if_neg hout).trans (if_pos hsrc))
  · exact (if_neg hrate).trans ((if_neg hout).trans ((if_neg (count_passes ho)).trans (if_pos hsrc)))
  · exact (if_neg hrate).trans ((if_neg hout).trans (if_pos hsrc))

theorem execPad_of_srcOutOfRange (hr : LegalBits s.regs.rateBits)
    (h : s.cfg.bufBytes < s.regs.srcAddr.toNat + s.regs.srcLen.toNat) : exec .pad s = .next (raiseError .bufRange s) :=
  (if_neg (rate_passes hr)).trans (if_pos (outOfRange_iff.2 h))

theorem execAbsorb_of_srcOutOfRange (hr : LegalBits s.regs.rateBits) (hblocks : s.regs.srcLen.toNat % rateBytes s = 0)
    (h : s.cfg.bufBytes < s.regs.srcAddr.toNat + s.regs.srcLen.toNat) : exec .absorb s = .next (raiseError .bufRange s) :=
  (if_neg (rate_passes hr)).trans ((if_neg (not_not.2 hblocks)).trans (if_pos (outOfRange_iff.2 h)))

theorem execOaepEnc_of_auxOutOfRange (hr : LegalBits s.regs.rateBits) (ho : LegalBits s.regs.outBits)
    (hsrc : s.regs.srcAddr.toNat + s.regs.srcLen.toNat ≤ s.cfg.bufBytes)
    (h : s.cfg.bufBytes < s.regs.auxAddr.toNat + s.regs.auxLen.toNat) : exec .oaepEnc s = .next (raiseError .bufRange s) :=
  (if_neg (rate_passes hr)).trans <| (if_neg (out_passes ho)).trans <| (if_neg (region_passes hsrc)).trans <|
    if_pos (outOfRange_iff.2 h)

theorem execOaepDec_of_inputOutOfRange (hr : LegalBits s.regs.rateBits) (ho : LegalBits s.regs.outBits)
    (hk : 2 * outBytes s + 2 ≤ s.regs.k.toNat)
    (h : s.cfg.bufBytes < s.regs.srcAddr.toNat + s.regs.k.toNat ∨ s.cfg.bufBytes < s.regs.auxAddr.toNat + s.regs.auxLen.toNat) :
    exec .oaepDec s = .next (raiseError .bufRange s) := by
  refine (if_neg (rate_passes hr)).trans ((if_neg (out_passes ho)).trans ((if_neg (Nat.not_lt.2 hk)).trans ?_))
  by_cases hsrc : s.cfg.bufBytes < s.regs.srcAddr.toNat + s.regs.k.toNat
  · exact if_pos (outOfRange_iff.2 hsrc)
  · exact (if_neg (region_passes (Nat.not_lt.1 hsrc))).trans (if_pos (outOfRange_iff.2 (h.resolve_left hsrc)))

end

/-! ### Output regions out of range (60_exceptions R223, R226) -/

/-- OAEP_ENC's register and region checks pass, and its inputs are `m` and `label` (45_oaep R192). -/
structure EncodeInputs (s : State) (m label : List Byte) : Prop where
  rate : LegalBits s.regs.rateBits
  out : LegalBits s.regs.outBits
  src : s.regs.srcAddr.toNat + s.regs.srcLen.toNat ≤ s.cfg.bufBytes
  aux : s.regs.auxAddr.toNat + s.regs.auxLen.toNat ≤ s.cfg.bufBytes
  message : Memory.readBytes s.buf s.regs.srcAddr.toNat s.regs.srcLen.toNat = .ok m
  label : Memory.readBytes s.buf s.regs.auxAddr.toNat s.regs.auxLen.toNat = .ok label

section
variable {s : State} {m E label : List Byte}

theorem deliver_of_lt {n : Nat} (out : List Byte) (h : s.cfg.bufBytes < s.regs.dstAddr.toNat + n) :
    deliver s n out = .next (raiseError .bufRange s) :=
  if_pos (outOfRange_iff.2 h)

theorem execHash_eq_deliver (hr : LegalBits s.regs.rateBits) (ho : LegalBits s.regs.outBits)
    (hsrc : s.regs.srcAddr.toNat + s.regs.srcLen.toNat ≤ s.cfg.bufBytes)
    (hm : Memory.readBytes s.buf s.regs.srcAddr.toNat s.regs.srcLen.toNat = .ok m) :
    execHash s = deliver s (outBytes s) (digestOf s m) :=
  (if_neg (rate_passes hr)).trans <| (if_neg (out_passes ho)).trans <| (if_neg (region_passes hsrc)).trans <| withBytes_of_ok _ hm

theorem execMgf1_eq_deliver (hr : LegalBits s.regs.rateBits) (ho : LegalBits s.regs.outBits)
    (hsrc : s.regs.srcAddr.toNat + s.regs.srcLen.toNat ≤ s.cfg.bufBytes)
    (hm : Memory.readBytes s.buf s.regs.srcAddr.toNat s.regs.srcLen.toNat = .ok m) :
    execMgf1 s = deliver s s.regs.dstLen.toNat (maskOf s m) :=
  (if_neg (rate_passes hr)).trans <| (if_neg (out_passes ho)).trans <| (if_neg (count_passes ho)).trans <|
    (if_neg (region_passes hsrc)).trans <| withBytes_of_ok _ hm

/-- OAEP_ENC on its inputs is the length test, then the draw of the seed, then the output (60_exceptions R236). -/
theorem execOaepEnc_of_inputs (h : EncodeInputs s m label) : execOaepEnc s =
    if !oaepFits m.length s.regs.k.toNat (outBytes s) then .next (raiseError .msgTooLong s)
    else deliver (rngDrawn (outBytes s) s) s.regs.k.toNat (blockOf s m label) :=
  (if_neg (rate_passes h.rate)).trans <| (if_neg (out_passes h.out)).trans <| (if_neg (region_passes h.src)).trans <|
    (if_neg (region_passes h.aux)).trans <| (withBytes_of_ok _ h.message).trans <| withBytes_of_ok _ h.label

/-- When only the output region fails, the seed has been drawn (60_exceptions R222, R236). -/
theorem execOaepEnc_of_dstOutOfRange (h : EncodeInputs s m label) (hfits : m.length + 2 * outBytes s + 2 ≤ s.regs.k.toNat)
    (hdst : s.cfg.bufBytes < s.regs.dstAddr.toNat + s.regs.k.toNat) :
    execOaepEnc s = .next (raiseError .bufRange (rngDrawn (outBytes s) s)) := by
  have hlen : ¬ (!oaepFits m.length s.regs.k.toNat (outBytes s)) = true := by simp [oaepFits_iff.2 hfits]
  exact (execOaepEnc_of_inputs h).trans ((if_neg hlen).trans (deliver_of_lt (s := rngDrawn (outBytes s) s) _ hdst))

/-- OAEP_DEC's checks, in the terms of the statements. -/
theorem DecodesFrom.of_legal (hr : LegalBits s.regs.rateBits) (ho : LegalBits s.regs.outBits)
    (hk : 2 * outBytes s + 2 ≤ s.regs.k.toNat) (hsrc : s.regs.srcAddr.toNat + s.regs.k.toNat ≤ s.cfg.bufBytes)
    (haux : s.regs.auxAddr.toNat + s.regs.auxLen.toNat ≤ s.cfg.bufBytes)
    (hE : Memory.readBytes s.buf s.regs.srcAddr.toNat s.regs.k.toNat = .ok E)
    (hlabel : Memory.readBytes s.buf s.regs.auxAddr.toNat s.regs.auxLen.toNat = .ok label) : DecodesFrom s E label :=
  ⟨validRate_iff.2 hr, validOut_iff.2 ho, hk, inRange_iff.2 hsrc, inRange_iff.2 haux, hE, hlabel⟩

theorem execOaepDec_of_dstOutOfRange {msg : List Byte} (h : DecodesFrom s E label) (hdec : decodeOf s E label = .ok msg)
    (hdst : s.cfg.bufBytes < s.regs.dstAddr.toNat + msg.length) : execOaepDec s = .next (raiseError .bufRange s) := by
  rw [decodeOf] at hdec
  simp only [execOaepDec, h.rate, h.out, Nat.not_lt.2 h.room, h.src, h.aux, withBytes_of_ok _ h.block, withBytes_of_ok _ h.label,
    hdec, deliver_of_lt _ hdst, Bool.not_true, Bool.false_eq_true, if_false]

end

/-- Settles O28: clause by clause, the checks before the region pass and the region's own fails. -/
theorem regionsAreChecked : Obligations.RegionsAreChecked := by
  intro s
  refine ⟨?_, ?_, ?_, ?_, ?_, ?_, ?_, ?_⟩
  · intro i hi hr ho h
    exact raisedOnly_of_exec (exec_of_srcOutOfRange (by simpa using hi) hr ho h)
  · intro hr h
    exact ⟨raisedOnly_of_exec (execPad_of_srcOutOfRange hr h),
      fun hblocks => raisedOnly_of_exec (execAbsorb_of_srcOutOfRange hr hblocks h)⟩
  · intro hr ho hk h
    exact raisedOnly_of_exec (execOaepDec_of_inputOutOfRange hr ho hk h)
  · intro hr ho hsrc h
    exact raisedOnly_of_exec (execOaepEnc_of_auxOutOfRange hr ho hsrc h)
  · intro ho h
    exact raisedOnly_of_exec ((execSqueeze_of_ok (validOut_iff.2 ho)).trans (deliver_of_lt _ h))
  · intro m hr hsrc hm
    have hpad := execPad_of_ok (validRate_iff.2 hr) (inRange_iff.2 hsrc) hm
    exact ⟨fun h => raisedOnly_of_exec (hpad.trans (deliver_of_lt _ h)),
      fun ho h => raisedOnly_of_exec ((execHash_eq_deliver hr ho hsrc hm).trans (deliver_of_lt _ h)),
      fun ho h => raisedOnly_of_exec ((execMgf1_eq_deliver hr ho hsrc hm).trans (deliver_of_lt _ h))⟩
  · intro m label hr ho hsrc haux hm hlabel hfits h
    obtain ⟨hrec, hlanes, hbuf, hregs⟩ := raiseError_rngDrawn_frame .bufRange (outBytes s) s
    exact ⟨_, execOaepEnc_of_dstOutOfRange ⟨hr, ho, hsrc, haux, hm, hlabel⟩ hfits h, hrec, hlanes, hbuf, hregs, rfl⟩
  · intro E label msg hr ho hk hsrc haux hE hlabel hdec h
    exact raisedOnly_of_exec (execOaepDec_of_dstOutOfRange (.of_legal hr ho hk hsrc haux hE hlabel) hdec h)

/-! ### MSG_TOO_LONG (60_exceptions R228) -/

/-- Settles O29: OAEP_ENC on its inputs starts with the length test, `execOaepEnc_of_inputs`, here over the integers. -/
theorem longMessagesAreRejected : Obligations.LongMessagesAreRejected := by
  intro s m label hr ho hsrc haux hm hlabel hlong
  have hlen : (!oaepFits m.length s.regs.k.toNat (outBytes s)) = true := by
    rw [Bool.not_eq_true', ← Bool.not_eq_true, oaepFits_iff, outBytes]
    omega
  exact raisedOnly_of_exec ((execOaepEnc_of_inputs ⟨hr, ho, hsrc, haux, hm, hlabel⟩).trans (if_pos hlen))

/-! ### The random-byte port (60_exceptions R236) -/

theorem env_exec {i : Instr} {s t : State} (h : exec i s = .next t) (hi : i ≠ .oaepEnc) : t.env = s.env := by
  rcases exec_cases i s with ⟨-, he⟩ | ⟨-, he⟩
  · rw [h] at he
    rcases he.next_cases with ⟨e, rfl⟩ | ⟨L, rfl⟩ <;> rfl
  · rw [h, maxDraw, if_neg hi] at he
    cases he with
    | raised e _ => rfl
    | late => rw [rngDrawn_zero, raiseError_env]
    | written out _ => rw [rngDrawn_zero, delivered_env]

/-- The ways OAEP_ENC completes, by what it has drawn (45_oaep R192): nothing before the end of its checks, else the seed. -/
inductive OaepEncEnd (s : State) : State → Prop where
  | refused (e : ErrCode) (he : e = .config ∨ e = .msgTooLong) : OaepEncEnd s (raiseError e s)
  | input (h : s.cfg.bufBytes < s.regs.srcAddr.toNat + s.regs.srcLen.toNat ∨
      s.cfg.bufBytes < s.regs.auxAddr.toNat + s.regs.auxLen.toNat) : OaepEncEnd s (raiseError .bufRange s)
  | output (hsrc : s.regs.srcAddr.toNat + s.regs.srcLen.toNat ≤ s.cfg.bufBytes)
      (haux : s.regs.auxAddr.toNat + s.regs.auxLen.toNat ≤ s.cfg.bufBytes)
      (hdst : s.cfg.bufBytes < s.regs.dstAddr.toNat + s.regs.k.toNat) :
      OaepEncEnd s (raiseError .bufRange (rngDrawn (outBytes s) s))
  | written (hsrc : s.regs.srcAddr.toNat + s.regs.srcLen.toNat ≤ s.cfg.bufBytes)
      (haux : s.regs.auxAddr.toNat + s.regs.auxLen.toNat ≤ s.cfg.bufBytes) (m label : List Byte) :
      OaepEncEnd s (encoded s m label)

/-- Check by check, in the order of R223. -/
theorem execOaepEnc_next_cases {s t : State} (h : execOaepEnc s = .next t) : OaepEncEnd s t := by
  rcases check_cases h with ⟨-, rfl⟩ | ⟨-, h⟩
  · exact .refused .config (.inl rfl)
  rcases check_cases h with ⟨-, rfl⟩ | ⟨-, h⟩
  · exact .refused .config (.inl rfl)
  rcases check_cases h with ⟨hsrc, rfl⟩ | ⟨hsrc, h⟩
  · exact .input (.inl (outOfRange_iff.1 hsrc))
  rcases check_cases h with ⟨haux, rfl⟩ | ⟨haux, h⟩
  · exact .input (.inr (outOfRange_iff.1 haux))
  obtain ⟨m, -, h⟩ := withBytes_next h
  obtain ⟨label, -, h⟩ := withBytes_next h
  rcases check_cases h with ⟨-, rfl⟩ | ⟨-, h⟩
  · exact .refused .msgTooLong (.inr rfl)
  have hsrc := Nat.not_lt.1 (outOfRange_iff.not.1 hsrc)
  have haux := Nat.not_lt.1 (outOfRange_iff.not.1 haux)
  rcases check_cases h with ⟨hdst, rfl⟩ | ⟨-, h⟩
  · exact .output hsrc haux (outOfRange_iff.1 hdst)
  · cases h
    exact .written hsrc haux m label

/-- Settles O30: `env_exec`, and the ways OAEP_ENC completes, `execOaepEnc_next_cases`. -/
theorem seedIsDrawnOnceAndOnlyAfterTheChecks : Obligations.SeedIsDrawnOnceAndOnlyAfterTheChecks := by
  refine ⟨fun i s t h hi => env_exec h hi, fun s t h => ?_⟩
  cases execOaepEnc_next_cases h with
  | refused e he =>
    rcases he with rfl | rfl
    · exact ⟨fun _ => rfl, fun _ => rfl, nofun, nofun, by simp⟩
    · exact ⟨fun _ => rfl, fun _ => rfl, nofun, nofun, by simp⟩
  | input hin => exact ⟨fun _ => rfl, fun _ => rfl, nofun, by omega, by simp⟩
  | output hsrc haux hdst => exact ⟨by simp, by omega, nofun, fun _ _ _ => ⟨hdst, rfl⟩, by simp⟩
  | written hsrc haux m label => exact ⟨by simp [encoded], by omega, fun _ => rfl, nofun, .inl rfl⟩

/-! ### The decode errors (60_exceptions R229, R230) -/

section
variable {c : Config} {E label : List Byte} {k r o : Nat} {st : Bool}

theorem find01_eq_none_iff {b : List Byte} : find01 b = none ↔ 0x01 ∉ b := by
  rw [find01, List.findIdx?_eq_none_iff]
  exact ⟨fun h hb => by simpa using h _ hb, fun h x hx => beq_eq_false_iff_ne.2 fun he => h (he ▸ hx)⟩

theorem oaepDecode_of_badLead (hst : st = true) (hE : E.getD 0 0 ≠ 0x00) :
    oaepDecode c E label k r o st = .error .malformedPadding :=
  if_pos (Bool.and_eq_true_iff.2 ⟨hst, bne_iff_ne.2 hE⟩)

/-- A missing delimiter is MALFORMED_PADDING whatever the leading byte and the label are (60_exceptions R229). -/
theorem oaepDecode_of_noDelimiter (h : 0x01 ∉ (oaepUnmask c E k r o).drop (o / 8)) :
    oaepDecode c E label k r o st = .error .malformedPadding := by
  simp only [oaepDecode, find01_eq_none_iff.2 h, ite_self]

end

/-- Settles O58: the decoding's error in each clause, which OAEP_DEC raises, `execOaepDec_of_error`. -/
theorem decodeErrorsInOrder : Obligations.DecodeErrorsInOrder := by
  intro s E label hr ho hk hsrc haux hE hlabel
  have hin := DecodesFrom.of_legal hr ho hk hsrc haux hE hlabel
  have hraise {e : ErrCode} (hdec : decodeOf s E label = .error e) :=
    raisedOnly_of_exec (i := .oaepDec) (execOaepDec_of_error hin hdec)
  refine ⟨fun hst hlead => hraise (oaepDecode_of_badLead hst ?_), fun _ hno => hraise (oaepDecode_of_noDelimiter hno),
    fun hlead hone hhash => ?_⟩
  · have hpos : 0 < E.length := by rw [Memory.readBytes_length hE]; omega
    simpa [List.getD, hpos] using hlead
  · obtain ⟨i, hi⟩ := Option.ne_none_iff_exists'.1 (find01_eq_none_iff.not_left.2 hone)
    exact hraise ((oaepDecode_of_delimiter hlead hi).trans (if_pos hhash))

end Sys2Proof.Machine
end

section
/-! PROOFS. The statements of 70_reset_and_hazards: what a written BUF ensures, completion, the step that is due, the step that
performs the next event (an acceptance or a reset among them), and the host's accesses while BUSY = 1. -/

namespace Sys2Proof.Machine

/-! ### A written BUF -/

/-- MemWrite takes no byte its value. -/
theorem bufWritten_writeBytes {s : State} (h : BufWritten s) (a : Nat) (bs : List Byte) :
    BufWritten { s with buf := Memory.writeBytes s.buf a bs } := by
  intro x hx
  by_cases hin : a ≤ x ∧ x < a + bs.length
  · obtain ⟨i, rfl⟩ := Nat.exists_eq_add_of_le hin.1
    simp [Memory.read_writeBytes_inside s.buf a bs (i := i) (by omega)]
  · have hout : Memory.read (Memory.writeBytes s.buf a bs) x = Memory.read s.buf x :=
      Memory.read_writeBytes_outside s.buf a bs (by omega)
    exact (congrArg Option.isSome hout).trans (h x hx)

theorem bufWritten_exec {i : Instr} {s t : State} (h : BufWritten s) (he : exec i s = .next t) : BufWritten t := by
  rcases exec_next_cases he with ⟨e, n, rfl⟩ | ⟨L, rfl⟩ | ⟨d, out, -, rfl⟩
  · exact h
  · exact h
  · exact bufWritten_writeBytes (s := rngDrawn d s) h _ out

theorem bufWritten_writeEnd {s t : State} (h : BufWritten s) (hw : WriteEnd s t) : BufWritten t := by
  cases hw with
  | ignored => exact h
  | dropped _ => exact h
  | bytes _ a bs _ => exact bufWritten_writeBytes h a bs
  | status v => exact h
  | word _ l v =>
    rcases writeRegLoc_cases l v s with hl | ⟨L, y, d, R, hl⟩
    · rw [hl]; simpa [BufWritten] using h
    · rw [hl]; exact h

/-- Of the events at the boundary only the reset takes the bytes of BUF their values (20_memory R71). -/
theorem bufWritten_hostStep {s : State} (h : BufWritten s) (hr : nextEvent s ≠ some .reset) : BufWritten (hostStep s) := by
  cases hev : nextEvent s with
  | none => rw [hostStep_none hev]; exact h
  | some e =>
    have hne : e ≠ .reset := by rintro rfl; exact hr hev
    rw [hostStep_some hev]
    rcases busEvent_cases_of_ne_reset (eventState e s) hne with hw | ⟨n, off, hread⟩
    · exact bufWritten_writeEnd (s := eventState e s) h hw
    · rw [hread]; exact h

theorem bufWritten_step {s t : State} (h : BufWritten s) (hr : nextEvent s ≠ some .reset) (ht : step s = .next t) :
    BufWritten t := by
  rcases step_cases ht with ⟨-, i, he⟩ | ⟨-, rfl⟩ | ⟨-, rfl⟩
  · exact bufWritten_exec h he
  · exact h
  · exact bufWritten_hostStep h hr

/-- A written BUF leaves no byte to stop at. -/
theorem step_next_of_bufWritten {s : State} (h : BufWritten s) : ∃ t, step s = .next t := by
  rcases step_next_or_stopped s with ht | ⟨-, a, -, ha, hnone⟩
  · exact ht
  · exact absurd (h a ha) (by simp [hnone])

/-- Settles O25: the step goes on, `step_next_of_bufWritten`; the invariant is kept by every step and BUF by every step but a
reset's. -/
theorem writtenBufferNeverStops : Obligations.WrittenBufferNeverStops := by
  intro s h
  obtain ⟨t, ht⟩ := step_next_of_bufWritten h
  exact ⟨fun hinv => ⟨t, ht, stepKeepsTheInvariant s t hinv ht⟩, t, ht, fun hr => bufWritten_step h hr ht⟩

/-! ### Completion -/

/-- A due step that goes on writes the completion record and leaves CMD (70_reset R261). -/
theorem step_of_due_completes {s t : State} (hd : engineDue s = true) (h : step s = .next t) :
    (∃ e, t.status = s.status.completed e) ∧ t.cmd = s.cmd := by
  rcases step_cases h with ⟨-, i, he⟩ | ⟨-, rfl⟩ | ⟨hn, -⟩
  · rcases exec_next_cases he with ⟨e, n, rfl⟩ | ⟨L, rfl⟩ | ⟨d, out, -, rfl⟩ <;> exact ⟨⟨_, rfl⟩, rfl⟩
  · exact ⟨⟨_, rfl⟩, rfl⟩
  · simp [hd] at hn

/-- One step after `n` steps. -/
theorem runSteps_succ_of_next (n : Nat) {s t : State} (h : runSteps n s = .next t) : runSteps (n + 1) s = step t := by
  induction n generalizing s with
  | zero =>
    cases h
    rw [runSteps]
    cases step t <;> rfl
  | succ n ih =>
    rw [runSteps] at h ⊢
    cases hs : step s with
    | next u => rw [hs] at h; exact ih h
    | fault f => simp [hs] at h
    | refused r => simp [hs] at h

/-- Settles O7: the command stays pending while the delay runs down, `runSteps_staysPending`, with BUF still written; the next
step is due and completes it. -/
theorem everyAcceptedCommandCompletes : Obligations.EveryAcceptedCommandCompletes := by
  intro s hb hw hr
  obtain ⟨t, hrun, hdelay, hst⟩ := runSteps_staysPending s.delay hb le_rfl hr
  have hdue : engineDue t = true := engineDue_iff.2 ⟨hst.busy, by omega⟩
  have hwt : BufWritten t := by simpa [BufWritten, hst.buf, hst.cfg] using hw
  obtain ⟨u, hu⟩ := step_next_of_bufWritten hwt
  obtain ⟨⟨e, hstatus⟩, hcmd⟩ := step_of_due_completes hdue hu
  exact ⟨u, (runSteps_succ_of_next _ hrun).trans hu, by simp [hstatus], by simp [hstatus], hcmd.trans hst.cmd⟩

/-! ### The step that is due -/

/-- Loading a command's word makes that command pending (30_encoding R96). -/
theorem withFetchWord_cmd (s : State) (i : Instr) : (s.withFetchWord 32 (encode i).toNat).cmd = encode i := by
  rw [State.withFetchWord, accepted_cmd, Nat.mod_eq_of_lt (encode i).isLt, BitVec.ofNat_toNat, BitVec.setWidth_eq]

/-- The due completion of a word that names a command. -/
theorem step_of_decode {s : State} {i : Instr} (hd : engineDue s = true) (hi : decode s.cmd = .ok i) : step s = exec i s := by
  simp [step, hd, hi]

/-! ### The step that performs the next event -/

theorem engineDue_eq_false_iff {s : State} : engineDue s = false ↔ s.status.busy = false ∨ s.delay ≠ 0 := by
  rw [← Bool.not_eq_true, engineDue_iff, not_and_or, Bool.not_eq_true]

/-- The delay lowered and the next event taken off the list: the state in which every event but WAIT is performed. -/
def afterDelivery (s : State) : State :=
  { s with
    delay := s.delay - 1
    env := { s.env with bus := s.env.bus.eraseIdx (deliveryIndex s), draws := s.env.draws + deliveryDraws s.cfg } }

/-- Which event is delivered does not depend on the delay. -/
@[simp] theorem deliveryIndex_delay (s : State) (d : Nat) : deliveryIndex { s with delay := d } = deliveryIndex s := rfl

theorem eventState_of_ne_wait {e : BusEvent} (s : State) (h : e ≠ .wait) : eventState e s = afterDelivery s := by
  simp [eventState, takeEvent, busRest_of_ne_wait h, afterDelivery]

/-- A WAIT stays on the list while BUSY = 1 (30_encoding R98). -/
theorem eventState_wait (s : State) : eventState .wait s =
    if s.status.busy then { afterDelivery s with env := { (afterDelivery s).env with bus := s.env.bus } }
    else afterDelivery s := by
  cases hb : s.status.busy <;> simp [eventState, takeEvent, busRest, afterDelivery, hb]

theorem step_of_event {s : State} {e : BusEvent} (hd : engineDue s = false) (hev : nextEvent s = some e) (h : e ≠ .wait) :
    step s = .next (busEvent e (afterDelivery s)) := by
  rw [step_of_not_due hd, hostStep_some hev, eventState_of_ne_wait s h]

/-- Settles O4: `step_of_decode` where the completion is due; else `step_of_event`, by the next event. -/
theorem stepRunsTheDecodedCommand : Obligations.StepRunsTheDecodedCommand := by
  refine ⟨fun s i hb hd => step_of_decode (engineDue_iff.2 ⟨hb, hd⟩), fun s i => ?_, fun s hnd => ?_, fun s => ?_⟩
  · exact step_of_decode (engineDue_iff.2 ⟨rfl, rfl⟩) (by rw [withFetchWord_cmd, decode_encode])
  · have hdue := engineDue_eq_false_iff.2 hnd
    have hstep : step s = .next (hostStep s) := step_of_not_due hdue
    have hevent {e : BusEvent} (hev : nextEvent s = some e) (he : e ≠ .wait) := step_of_event hdue hev he
    refine ⟨hstep, fun hev => ?_, fun _ _ hev => hevent hev nofun, fun _ _ hev => hevent hev nofun,
      fun _ _ hev => hevent hev nofun, fun _ hev => hevent hev nofun, fun _ hev => hevent hev nofun,
      fun _ hev => hevent hev nofun, fun hev => ?_, fun hev => hevent hev nofun⟩
    · rw [hstep, hostStep_none hev]
    · rw [hstep, hostStep_some hev, eventState_wait]; rfl
  · refine ⟨fun ho => ⟨nextEvent_inOrder ho, ?_, ?_⟩, rfl, deliveryIndex_lt⟩
    · simp [deliveryIndex, ho]
    · simp [deliveryDraws, ho]

/-- Settles O5: a CMD write is dropped while BUSY = 1; performed while BUSY = 0 it is `accept`, whose effects are those of
R260. -/
theorem acceptanceStartsTheCommand : Obligations.AcceptanceStartsTheCommand := by
  refine ⟨fun s w hb => ?_, fun s w hb hev => ?_⟩
  · exact ((wordAt_offset .cmd).hostWrite (by decide) w s).trans (if_pos hb)
  · have hwrite : hostWrite 4 0x014 w (afterDelivery s) = accept w (afterDelivery s) := hostWrite_offset .cmd w hb
    obtain ⟨d, e, hacc, hbus, hreads, hrng⟩ := accept_eq_accepted w (afterDelivery s)
    have hstep := step_of_event (engineDue_eq_false_iff.2 (.inl hb)) hev nofun
    exact ⟨_, hstep.trans (congrArg _ (hwrite.trans hacc)), rfl, rfl, rfl, rfl, rfl, rfl, rfl, rfl, hbus, hreads, hrng⟩

/-- Settles O19: the event performed is `resetEngine`, which no pending command changes. -/
theorem resetAbandonsThePendingCommand : Obligations.ResetAbandonsThePendingCommand :=
  fun _ hev hnd => ⟨_, step_of_event (engineDue_eq_false_iff.2 hnd) hev nofun, rfl, rfl, rfl⟩

/-! ### Accesses while BUSY = 1 -/

/-- The buffer window admits the aligned accesses that lie wholly below BUF_BYTES (20_memory R62). -/
theorem admitted_iff_of_bufWindow {off : Offset} (c : Config) (n : Nat) (h : 0x10000 ≤ off.toNat) :
    admitted c n off = true ↔ off.toNat % n = 0 ∧ off.toNat - 0x10000 + n ≤ c.bufBytes := by
  simp [admitted, inBufWindow, h, bufAdmitted]

/-- A STATUS write takes its effect whatever BUSY is (10_state R37). -/
theorem WordAt.hostWrite_status {off : Offset} (h : WordAt off (.named .status)) (v : Word) (s : State) :
    Machine.hostWrite 4 off v s = { s with status := s.status.hostWrite v } := by
  obtain ⟨-, -, hl⟩ := id h
  simp [Machine.hostWrite, h.admitted, h.inBufWindow, hl, writeRegLoc, writeReg]

/-- Settles O9: in each window an access is admitted or ignored; an admitted write while BUSY = 1 is dropped, but at STATUS. -/
theorem writesWhileBusyAreDropped : Obligations.WritesWhileBusyAreDropped := by
  intro s n off v _
  refine ⟨fun hb hreg hn hal hne => ?_, fun hb hbuf hal hle => ?_, fun hn ho => ?_, fun hreg hbad => ?_, fun hbuf hbad => ?_⟩
  · subst hn
    have hword : WordAt off (regLocAt off.toNat) := ⟨hreg, hal, rfl⟩
    have hstatus : regLocAt off.toNat ≠ .named .status := fun h => hne (BitVec.eq_of_toNat_eq (regLocAt_named h))
    exact (hword.hostWrite hstatus v s).trans (if_pos hb)
  · have ha : admitted s.cfg n off = true := (admitted_iff_of_bufWindow s.cfg n hbuf).2 ⟨hal, hle⟩
    exact hostWrite_bufWindow_busy v (Nat.add_sub_of_le hbuf).symm ha hb
  · subst hn ho
    exact (wordAt_offset .status).hostWrite_status v s
  · have ha : admitted s.cfg n off = false := by
      rw [← Bool.not_eq_true, admitted_regWindow s.cfg n hreg]
      omega
    exact hostWrite_of_not_admitted v ha
  · have ha : admitted s.cfg n off = false := by
      rw [← Bool.not_eq_true, admitted_iff_of_bufWindow s.cfg n hbuf]
      omega
    exact hostWrite_of_not_admitted v ha

/-- STATUS of a pending command (70_reset R263). -/
theorem status_word_of_pending {st : Status} (hb : st.busy = true) (hd : st.done = false) (he : st.err = .none) :
    st.word = if st.drop then 0x00000005 else 0x00000001 := by
  obtain ⟨busy, done, drop, err⟩ := st
  cases hb; cases hd; cases he
  cases drop <;> decide

theorem ctrlWord_eq (y : Bool) : ctrlWord y = if y then 1 else 0 := by
  cases y <;> decide

/-- Settles O11: a register reads its field, of which the invariant fixes DONE, ERR and RES_LEN while BUSY = 1; lane halves and
BUF read the free word. -/
theorem busyReadsFollowTheTable : Obligations.BusyReadsFollowTheTable := by
  intro s hinv hb
  obtain ⟨-, -, hpending, -⟩ := hinv
  obtain ⟨hdone, herr, hlen⟩ := hpending hb
  have hr := hostReadValue_offset s
  have hres : WordAt 0x01C .reserved := wordAt_reserved (by decide) (by decide)
  refine ⟨(hr .status).trans (status_word_of_pending hb hdone herr), hr .cmd, (hr .resLen).trans hlen, hres.hostReadValue s,
    (hr .ctrl).trans (ctrlWord_eq s.strictY), hr .rateBits, hr .outBits, hr .k, hr .srcAddr, hr .srcLen, hr .auxAddr,
    hr .auxLen, hr .dstAddr, hr .dstLen, hr .id, hr .caps, hr .bufsize, fun j => ⟨?_, ?_⟩, fun n off hn hbuf hal hle => ?_⟩
  · exact ((wordAt_laneLo j).hostReadValue s).trans (if_pos hb)
  · exact ((wordAt_laneHi j).hostReadValue s).trans (if_pos hb)
  · have ha : admitted s.cfg n off = true := (admitted_iff_of_bufWindow s.cfg n hbuf).2 ⟨hal, hle⟩
    rw [hostReadValue_bufWindow_busy (Nat.add_sub_of_le hbuf).symm ha hb]
    exact cutToWidth_toNat (by omega) _

end Sys2Proof.Machine
end
